-- ==== Sys2Proof/Word.lean ====
section
/-! DEFINITION. The two word types of EPDC: the byte and the level of a wire (00_scope.md R12). -/

namespace Sys2Proof

/-- A Byte is an unsigned 8-bit value (R12). -/
abbrev Byte := BitVec 8

/-- A Level is 0 (low) or 1 (high) (R12). -/
inductive Level where
  | low
  | high
deriving DecidableEq, Repr, Inhabited

/-- `not l` on a Level is `1 - l` (R12). -/
def Level.not : Level → Level
  | .low => .high
  | .high => .low

/-- The level as the bit it stands for: low is 0, high is 1 (R12). -/
def Level.bit : Level → BitVec 1
  | .low => 0#1
  | .high => 1#1

end Sys2Proof
end

