-- ==== Sys2Proof/Config.lean ====
section
/-! DEFINITION. The panel descriptor and the construction inputs (00_scope.md R8, R9, R10), and the free
values: constants with no body for what the spec leaves unspecified. -/

namespace Sys2Proof

/-- The three colour classes: background, foreground, accent (R8, field CLASSIFY). -/
inductive ColorClass where
  | bg
  | fg
  | ac
deriving DecidableEq, Repr, Inhabited

/-- Pixel order inside a framebuffer byte (R8, field BIT_ORDER; R63). -/
inductive BitOrder where
  | msbFirst
  | lsbFirst
deriving DecidableEq, Repr, Inhabited

/-- A command byte and the data bytes that follow it: the shape of REFRESH, POWER_OFF and SLEEP (R8). -/
structure PanelWrite where
  cmd : Byte
  payload : List Byte
deriving DecidableEq, Repr, Inhabited

/-- The fields of a waveform LUT descriptor (43_lut.md R230), each list flat in index order:
`vs` holds VS[s][g][ph] at 48*s + 4*g + ph, `t` holds T[g][k] at 7*g + k, then FR[g], NS[j], S[i].
The entries are the caller's numbers, taken modulo their widths by PackLut (R232); log 21. -/
structure LutDescriptor where
  vs : List Nat
  t : List Nat
  fr : List Nat
  ns : List Nat
  sc : List Nat
deriving DecidableEq, Repr, Inhabited

/-- VS[s][g][ph], the 2-bit drive code (R230). -/
def LutDescriptor.vsAt (l : LutDescriptor) (s g ph : Nat) : Nat := l.vs.getD (48 * s + 4 * g + ph) 0

/-- T[g][k], byte `k` of the timing record of group `g` (R230). -/
def LutDescriptor.tAt (l : LutDescriptor) (g k : Nat) : Nat := l.t.getD (7 * g + k) 0

/-- FR[g], the frame-rate nibble of group `g` (R230). -/
def LutDescriptor.frAt (l : LutDescriptor) (g : Nat) : Nat := l.fr.getD g 0

/-- NS[j], a next-state flag (R230). -/
def LutDescriptor.nsAt (l : LutDescriptor) (j : Nat) : Nat := l.ns.getD j 0

/-- S[i], a scalar byte (R230). -/
def LutDescriptor.scAt (l : LutDescriptor) (i : Nat) : Nat := l.sc.getD i 0

/-- One EPDC's configuration: the panel descriptor PD (R8), the construction inputs (R9) and the
parameters that are not per model (R10). Immutable after construction (R30). The sequences INIT and
FULL_PRE stand as their ROM images (R94; log 20), CLASSIFY as a finite table with a default (log 10). -/
structure Config where
  /-- W, panel width in pixels. -/
  width : Nat
  /-- H, panel height in pixels. -/
  height : Nat
  /-- HAS_ACCENT. -/
  hasAccent : Bool
  /-- COUNTER_BASED. -/
  counterBased : Bool
  /-- THR_INIT. -/
  thrInit : Nat
  /-- BUSY_ACTIVE, the level of the busy pin that means busy. -/
  busyActive : Level
  /-- IDLE_TIMEOUT_MS. -/
  idleTimeoutMs : Nat
  /-- RST_L0, the reset line's initial level. -/
  rstL0 : Level
  /-- RST_T1_MS. -/
  rstT1Ms : Nat
  /-- RST_T2_MS. -/
  rstT2Ms : Nat
  /-- NOBUSY_DELAY_MS. -/
  nobusyDelayMs : Nat
  /-- CLASSIFY, the listed colours. -/
  classify : List (Nat × ColorClass)
  /-- CLASSIFY, every colour that is not listed. -/
  classifyOther : ColorClass
  /-- FG_BIT. -/
  fgBit : Bool
  /-- AC_BIT. -/
  acBit : Bool
  /-- IDLE0. -/
  idle0 : Byte
  /-- IDLE1. -/
  idle1 : Byte
  /-- BIT_ORDER. -/
  bitOrder : BitOrder
  /-- The ROM image of INIT. -/
  initRom : List Byte
  /-- The ROM image of FULL_PRE. -/
  fullPreRom : List Byte
  /-- CMD_RAM_BW. -/
  cmdRamBw : Byte
  /-- CMD_RAM_AC. -/
  cmdRamAc : Byte
  /-- REFRESH. -/
  refresh : PanelWrite
  /-- POWER_OFF. -/
  powerOff : Option PanelWrite
  /-- SLEEP. -/
  sleep : PanelWrite
  /-- CMD_LUT. -/
  cmdLut : Option Byte
  /-- HAS_BUSY_PIN (R9). -/
  hasBusyPin : Bool
  /-- RST_OVERRIDE_MS (R9). -/
  rstOverrideMs : Option Nat
  /-- LUTCFG (R9). -/
  lutCfg : Option LutDescriptor
  /-- POLL_MS (R10). -/
  pollMs : Nat
  /-- COLOR_BITS (R10). -/
  colorBits : Nat
deriving DecidableEq, Repr, Inhabited

/-- The descriptor of `State.reset`: fixture T2 of 95_test_vectors.md part 0. The spec gives no
descriptor. DESIGN CHOICE (log 2), unsafe: nothing but `State.reset` rests on it. The fields the
fixture leaves out or calls unused (AC_BIT, IDLE1, CMD_RAM_AC) hold T1's values. -/
def Config.reference : Config where
  width := 10
  height := 2
  hasAccent := false
  counterBased := true
  thrInit := 3
  busyActive := .low
  idleTimeoutMs := 30
  rstL0 := .high
  rstT1Ms := 10
  rstT2Ms := 5
  nobusyDelayMs := 100
  classify := [(0, .fg), (1, .bg), (2, .ac)]
  classifyOther := .fg
  fgBit := false
  acBit := true
  idle0 := 0xFF#8
  idle1 := 0x00#8
  bitOrder := .msbFirst
  initRom := [0x01#8, 0xA1#8, 0x02#8, 0x09#8, 0x01#8, 0x00#8]
  fullPreRom := [0x01#8, 0xB0#8, 0x01#8, 0x5A#8, 0x00#8]
  cmdRamBw := 0x24#8
  cmdRamAc := 0x26#8
  refresh := ⟨0x12#8, []⟩
  powerOff := some ⟨0xB2#8, []⟩
  sleep := ⟨0x10#8, []⟩
  cmdLut := none
  hasBusyPin := true
  rstOverrideMs := none
  lutCfg := none
  pollMs := 10
  colorBits := 8

/-- FREE VALUE (log 3): what framebuffer byte `a` holds from construction until it is written, past
the listed `fbInit` (R21, U3: any value per byte, fixed for the run). -/
opaque Config.powerOnByte : Nat → Byte

/-- FREE VALUE (log 4): the mode line before the first transaction (R26, U4). -/
opaque Config.powerOnDc : Level

/-- FREE VALUE (log 4): the reset line before the first Reset phase (R26, U4). -/
opaque Config.powerOnRstl : Level

/-- FREE VALUE (log 5): the level the busy pin reads at the n-th sample past the listed `busyIn`
(R123: a free draw per sample; EPDC assumes nothing of it). -/
opaque Config.busyLevel : Nat → Level

end Sys2Proof
end

