-- ==== Sys2Proof/Syntax.lean ====
section
/-! DEFINITION. The operations of EPDC: one constructor of `Instr` for each row of
spec/opcode_table.json, in the four formats of 30_encoding.md R90. -/

namespace Sys2Proof

/-- The bit-planes: plane 0 is black/white, plane 1 is accent (20_memory.md R61). -/
inductive Plane where
  | bw
  | ac
deriving DecidableEq, Repr, Inhabited

/-- The two descriptor sequences RunSeq performs (42_protocol.md R180). -/
inductive SeqId where
  | init
  | fullPre
deriving DecidableEq, Repr, Inhabited

/-- One step of a descriptor sequence, as read from its ROM image (30_encoding.md R94, R98). -/
inductive SeqStep where
  | stop
  | write (c : Byte) (payload : List Byte)
  | wait
  | lut
  | reserved (tag : Byte)
deriving DecidableEq, Repr, Inhabited

/-- Every operation of the block, one constructor per row of the opcode table. -/
inductive Instr where
  /- Format HOST (R93, R99, R103). -/
  | setup
  | update
  | shutdown
  | setFullEvery (n : BitVec 32)
  | setPixel (x y : BitVec 16) (color : Nat)
  | fill (color : Nat)
  | clear
  | getWidth
  | getHeight
  | getType
  | bufLen
  | loadLut (image : List Byte)
  | alwaysFull
  | hostReserved (opcode : Byte)
  /- Format STEP (R94, R98). -/
  | seqEnd
  | seqWrite (c : Byte) (payload : List Byte)
  | seqWait
  | seqLut
  | stepReserved (tag : Byte)
  /- Format BUS (R91, R95). -/
  | sendCmd (b : Byte)
  | sendData (b : Byte)
  | panelRamBw
  | panelRamAc
  | panelRefresh
  | panelSleep
  | panelPowerOff
  | panelLutWrite (image : List Byte)
  /- Format MICRO (R90): no encoding. -/
  | delay (d : Nat)
  | sampleBusy
  | waitIdle (t : Nat)
  | driveRst (l : Level)
  | sendWrite (c : Byte) (l : List Byte)
  | runSeq (q : SeqId)
  | resetPhase
  | initPhase
  | xferPlane (p : Plane)
  | transferRefresh (full : Bool)
  | deepSleepPhase
  | packLut (l : LutDescriptor)
  | unpackLut (image : List Byte)
deriving DecidableEq, Repr, Inhabited

/-- The formats of the opcode table (R90). -/
inductive Format where
  | host
  | step
  | bus
  | micro
deriving DecidableEq, Repr, Inhabited

/-- The format of each operation, as the opcode table gives it. -/
def Instr.format : Instr → Format
  | .setup => .host
  | .update => .host
  | .shutdown => .host
  | .setFullEvery _ => .host
  | .setPixel _ _ _ => .host
  | .fill _ => .host
  | .clear => .host
  | .getWidth => .host
  | .getHeight => .host
  | .getType => .host
  | .bufLen => .host
  | .loadLut _ => .host
  | .alwaysFull => .host
  | .hostReserved _ => .host
  | .seqEnd => .step
  | .seqWrite _ _ => .step
  | .seqWait => .step
  | .seqLut => .step
  | .stepReserved _ => .step
  | .sendCmd _ => .bus
  | .sendData _ => .bus
  | .panelRamBw => .bus
  | .panelRamAc => .bus
  | .panelRefresh => .bus
  | .panelSleep => .bus
  | .panelPowerOff => .bus
  | .panelLutWrite _ => .bus
  | .delay _ => .micro
  | .sampleBusy => .micro
  | .waitIdle _ => .micro
  | .driveRst _ => .micro
  | .sendWrite _ _ => .micro
  | .runSeq _ => .micro
  | .resetPhase => .micro
  | .initPhase => .micro
  | .xferPlane _ => .micro
  | .transferRefresh _ => .micro
  | .deepSleepPhase => .micro
  | .packLut _ => .micro
  | .unpackLut _ => .micro

/-- The operation a sequence step stands for (R94). -/
def SeqStep.instr : SeqStep → Instr
  | .stop => .seqEnd
  | .write c p => .seqWrite c p
  | .wait => .seqWait
  | .lut => .seqLut
  | .reserved t => .stepReserved t

end Sys2Proof
end

