-- ==== Sys2Proof/WellFormed.lean ====
section
/-! DEFINITION. Which descriptors and which operations are well formed (00_scope.md R11, 30_encoding.md R98). -/

namespace Sys2Proof

/-- The number of bytes of a LUT image (43_lut.md R231; 90_conflicts.md C1). -/
def lutImageLength : Nat := 158

/-- A LUT descriptor has 240 drive codes, 84 timing bytes, 12 nibbles, 24 flags and 5 scalars (R230). -/
def LutDescriptor.shapeOk (l : LutDescriptor) : Bool :=
  l.vs.length == 240 && l.t.length == 84 && l.fr.length == 12 && l.ns.length == 24 && l.sc.length == 5

/-- Every field is within its width: 2, 8, 4, 1 and 8 bits (R230). -/
def LutDescriptor.inRange (l : LutDescriptor) : Bool :=
  l.vs.all (fun v => decide (v < 4)) && l.t.all (fun v => decide (v < 256)) &&
    l.fr.all (fun v => decide (v < 16)) && l.ns.all (fun v => decide (v < 2)) &&
    l.sc.all (fun v => decide (v < 256))

/-- R98: read from byte 0, every tag is 0x00 to 0x03, every W step lies inside the image, and an END is
reached; bytes after the first END are ignored. The first argument is fuel, at least the length. -/
def romWellFormed : Nat → List Byte → Bool
  | 0, _ => false
  | _ + 1, [] => false
  | k + 1, tag :: rest =>
    if tag = 0x00#8 then true
    else if tag = 0x01#8 then
      match rest with
      | _ :: n :: body => decide (n.toNat ≤ body.length) && romWellFormed k (body.drop n.toNat)
      | _ => false
    else if tag = 0x02#8 then romWellFormed k rest
    else if tag = 0x03#8 then romWellFormed k rest
    else false

/-- Does a LUT step stand in the image before its END (R11 c)? -/
def romHasLut : Nat → List Byte → Bool
  | 0, _ => false
  | _ + 1, [] => false
  | k + 1, tag :: rest =>
    if tag = 0x00#8 then false
    else if tag = 0x01#8 then
      match rest with
      | _ :: n :: body => romHasLut k (body.drop n.toNat)
      | _ => false
    else if tag = 0x02#8 then romHasLut k rest
    else if tag = 0x03#8 then true
    else false

/-- R11 (c) and R98 for one sequence of a descriptor. -/
def Config.sequenceOk (c : Config) (rom : List Byte) : Bool :=
  romWellFormed rom.length rom &&
    (!romHasLut rom.length rom || (c.cmdLut.isSome && c.lutCfg.isSome))

/-- R11: the descriptor is well formed. The bound of (d) on a W step's payload is the width of its
length byte. The shape of LUTCFG is that of its type in the spec (log 21). -/
def Config.wellFormed (c : Config) : Bool :=
  decide (1 ≤ c.width) && decide (1 ≤ c.height) && decide (c.width ≤ 32767) && decide (c.height ≤ 32767) &&
    decide (1 ≤ c.thrInit) && c.sequenceOk c.initRom && c.sequenceOk c.fullPreRom &&
    decide (c.refresh.payload.length ≤ 255) && c.powerOff.all (fun w => decide (w.payload.length ≤ 255)) &&
    decide (c.sleep.payload.length ≤ 255) && decide (1 ≤ c.pollMs) && c.lutCfg.all (·.shapeOk)

/-- The operands an encoding can carry: a colour has COLOR_BITS bits (R93), an image 158 bytes (R231), a
payload at most 255 (R94), a reserved code is none of the assigned ones (R98, R99). -/
def Instr.wellFormed (c : Config) : Instr → Bool
  | .setup => true
  | .update => true
  | .shutdown => true
  | .setFullEvery _ => true
  | .setPixel _ _ color => decide (color < 2 ^ c.colorBits)
  | .fill color => decide (color < 2 ^ c.colorBits)
  | .clear => true
  | .getWidth => true
  | .getHeight => true
  | .getType => true
  | .bufLen => true
  | .loadLut image => image.length == lutImageLength
  | .alwaysFull => true
  | .hostReserved op => decide (op.toNat = 0 ∨ 13 ≤ op.toNat)
  | .seqEnd => true
  | .seqWrite _ payload => decide (payload.length ≤ 255)
  | .seqWait => true
  | .seqLut => true
  | .stepReserved tag => decide (4 ≤ tag.toNat)
  | .sendCmd _ => true
  | .sendData _ => true
  | .panelRamBw => true
  | .panelRamAc => true
  | .panelRefresh => true
  | .panelSleep => true
  | .panelPowerOff => true
  | .panelLutWrite image => image.length == lutImageLength
  | .delay _ => true
  | .sampleBusy => true
  | .waitIdle _ => true
  | .driveRst _ => true
  | .sendWrite _ _ => true
  | .runSeq _ => true
  | .resetPhase => true
  | .initPhase => true
  | .xferPlane _ => true
  | .transferRefresh _ => true
  | .deepSleepPhase => true
  | .packLut l => l.shapeOk
  | .unpackLut image => image.length == lutImageLength

end Sys2Proof
end

