-- ==== Sys2Proof/Decode.lean ====
section
/-! DEFINITION. Decoding, total on any bytes, and the encoder, both from 30_encoding.md R91 to R101. -/

namespace Sys2Proof

/-- Why bytes are no operation. -/
inductive DecodeError where
  /-- There is no byte to read. -/
  | noBytes
  /-- The opcode or tag asks for more bytes than there are. -/
  | truncated
  /-- Bytes are left over after one operation. -/
  | trailingBytes
  /-- The operation has no encoding (format MICRO, R90). -/
  | noEncoding
deriving DecidableEq, Repr

/-- The number most significant byte first (R92, R93). -/
def bytesToNat (bs : List Byte) : Nat := bs.foldl (fun acc b => acc * 256 + b.toNat) 0

/-- The low `n` bytes of `v`, most significant byte first (R92, R93). -/
def natToBytes : Nat → Nat → List Byte
  | 0, _ => []
  | n + 1, v => BitVec.ofNat 8 (v / 256 ^ n) :: natToBytes n v

/-- The bytes a colour of `colorBits` bits takes on the host port (R93). -/
def colorBytes (colorBits : Nat) : Nat := (colorBits + 7) / 8

/-- The unused low bits of the last colour byte when COLOR_BITS is not whole bytes (log 11). -/
def colorPad (colorBits : Nat) : Nat := 8 * colorBytes colorBits - colorBits

/-- The colour: the first `colorBits` bits of its bytes (R93, log 11). -/
def colorOfBytes (colorBits : Nat) (bs : List Byte) : Nat := bytesToNat bs / 2 ^ colorPad colorBits

/-- The colour's bytes, its padding bits 0 (R93, log 11). -/
def colorToBytes (colorBits color : Nat) : List Byte :=
  natToBytes (colorBytes colorBits) (color * 2 ^ colorPad colorBits)

/-- Read `n` operand bytes and make an operation of them, answering the bytes left. -/
def withOperands {α : Type} (n : Nat) (bs : List Byte) (f : List Byte → α) :
    Except DecodeError (α × List Byte) :=
  if n ≤ bs.length then .ok (f (bs.take n), bs.drop n) else .error .truncated

/-- The host command word at the head of `bs` and the bytes after it (R92, R93, R96, R99). Every opcode
byte is an operation, the reserved ones `hostReserved`; only missing bytes are an error. -/
def decodeHost (colorBits : Nat) : List Byte → Except DecodeError (Instr × List Byte)
  | [] => .error .noBytes
  | op :: rest =>
    match op.toNat with
    | 0x01 => .ok (.setup, rest)
    | 0x02 => .ok (.update, rest)
    | 0x03 => .ok (.shutdown, rest)
    | 0x04 => withOperands 4 rest fun bs => .setFullEvery (BitVec.ofNat 32 (bytesToNat bs))
    | 0x05 => withOperands (4 + colorBytes colorBits) rest fun bs =>
        .setPixel (BitVec.ofNat 16 (bytesToNat (bs.take 2))) (BitVec.ofNat 16 (bytesToNat ((bs.drop 2).take 2)))
          (colorOfBytes colorBits (bs.drop 4))
    | 0x06 => withOperands (colorBytes colorBits) rest fun bs => .fill (colorOfBytes colorBits bs)
    | 0x07 => .ok (.clear, rest)
    | 0x08 => .ok (.getWidth, rest)
    | 0x09 => .ok (.getHeight, rest)
    | 0x0A => .ok (.getType, rest)
    | 0x0B => .ok (.bufLen, rest)
    | 0x0C => withOperands lutImageLength rest fun bs => .loadLut bs
    | _ => .ok (.hostReserved op, rest)

/-- The sequence step at the head of `bs` and the bytes after it (R94, R98, R101). -/
def decodeStep : List Byte → Except DecodeError (SeqStep × List Byte)
  | [] => .error .noBytes
  | tag :: rest =>
    match tag.toNat with
    | 0x00 => .ok (.stop, rest)
    | 0x01 =>
      match rest with
      | c :: n :: body => withOperands n.toNat body fun p => .write c p
      | _ => .error .truncated
    | 0x02 => .ok (.wait, rest)
    | 0x03 => .ok (.lut, rest)
    | _ => .ok (.reserved tag, rest)

/-- The bus frame `dc ++ b`: dc = 0 a command, dc = 1 data (R91). -/
def decodeBus (frame : BitVec 9) : Instr :=
  if frame.getLsbD 8 then .sendData (frame.setWidth 8) else .sendCmd (frame.setWidth 8)

/-- The 9-bit bus frame `dc ++ b` (R91). -/
def busFrame (dc : Level) (b : Byte) : BitVec 9 := dc.bit ++ b

/-- An encoded operation: its format and its bits (R90). -/
inductive Encoded where
  | host (bytes : List Byte)
  | step (bytes : List Byte)
  | bus (frame : BitVec 9)
  | unencoded
deriving DecidableEq, Repr

/-- The encoding of a sequence step (R94). -/
def encodeStep : SeqStep → List Byte
  | .stop => [0x00#8]
  | .write c p => 0x01#8 :: c :: BitVec.ofNat 8 p.length :: p
  | .wait => [0x02#8]
  | .lut => [0x03#8]
  | .reserved t => [t]

/-- The ROM image of a list of steps: their encodings, followed by one END (R94). -/
def encodeSeq (steps : List SeqStep) : List Byte := (steps.map encodeStep).flatten ++ encodeStep .stop

/-- The command word of a host operation (R92, R93); none for an operation of another format. -/
def encodeHost (colorBits : Nat) : Instr → Option (List Byte)
  | .setup => some [0x01#8]
  | .update => some [0x02#8]
  | .shutdown => some [0x03#8]
  | .setFullEvery n => some (0x04#8 :: natToBytes 4 n.toNat)
  | .setPixel x y color =>
    some (0x05#8 :: (natToBytes 2 x.toNat ++ natToBytes 2 y.toNat ++ colorToBytes colorBits color))
  | .fill color => some (0x06#8 :: colorToBytes colorBits color)
  | .clear => some [0x07#8]
  | .getWidth => some [0x08#8]
  | .getHeight => some [0x09#8]
  | .getType => some [0x0A#8]
  | .bufLen => some [0x0B#8]
  | .loadLut image => some (0x0C#8 :: image)
  | .alwaysFull => some (0x04#8 :: natToBytes 4 1)
  | .hostReserved op => some [op]
  | .seqEnd => none
  | .seqWrite _ _ => none
  | .seqWait => none
  | .seqLut => none
  | .stepReserved _ => none
  | .sendCmd _ => none
  | .sendData _ => none
  | .panelRamBw => none
  | .panelRamAc => none
  | .panelRefresh => none
  | .panelSleep => none
  | .panelPowerOff => none
  | .panelLutWrite _ => none
  | .delay _ => none
  | .sampleBusy => none
  | .waitIdle _ => none
  | .driveRst _ => none
  | .sendWrite _ _ => none
  | .runSeq _ => none
  | .resetPhase => none
  | .initPhase => none
  | .xferPlane _ => none
  | .transferRefresh _ => none
  | .deepSleepPhase => none
  | .packLut _ => none
  | .unpackLut _ => none

/-- The command word of a host operation as an encoding. -/
def hostWord (colorBits : Nat) (i : Instr) : Encoded :=
  match encodeHost colorBits i with
  | some bytes => .host bytes
  | none => .unencoded

/-- The encoding of every operation. A panel command is the command frame of its descriptor field
(R95); one whose field is absent has no frame. -/
def encode (c : Config) : Instr → Encoded
  | .seqEnd => .step (encodeStep .stop)
  | .seqWrite b p => .step (encodeStep (.write b p))
  | .seqWait => .step (encodeStep .wait)
  | .seqLut => .step (encodeStep .lut)
  | .stepReserved t => .step (encodeStep (.reserved t))
  | .sendCmd b => .bus (busFrame .low b)
  | .sendData b => .bus (busFrame .high b)
  | .panelRamBw => .bus (busFrame .low c.cmdRamBw)
  | .panelRamAc => .bus (busFrame .low c.cmdRamAc)
  | .panelRefresh => .bus (busFrame .low c.refresh.cmd)
  | .panelSleep => .bus (busFrame .low c.sleep.cmd)
  | .panelPowerOff => match c.powerOff with
    | some w => .bus (busFrame .low w.cmd)
    | none => .unencoded
  | .panelLutWrite _ => match c.cmdLut with
    | some b => .bus (busFrame .low b)
    | none => .unencoded
  | .setup => hostWord c.colorBits .setup
  | .update => hostWord c.colorBits .update
  | .shutdown => hostWord c.colorBits .shutdown
  | .setFullEvery n => hostWord c.colorBits (.setFullEvery n)
  | .setPixel x y color => hostWord c.colorBits (.setPixel x y color)
  | .fill color => hostWord c.colorBits (.fill color)
  | .clear => hostWord c.colorBits .clear
  | .getWidth => hostWord c.colorBits .getWidth
  | .getHeight => hostWord c.colorBits .getHeight
  | .getType => hostWord c.colorBits .getType
  | .bufLen => hostWord c.colorBits .bufLen
  | .loadLut image => hostWord c.colorBits (.loadLut image)
  | .alwaysFull => hostWord c.colorBits .alwaysFull
  | .hostReserved op => hostWord c.colorBits (.hostReserved op)
  | .delay _ => .unencoded
  | .sampleBusy => .unencoded
  | .waitIdle _ => .unencoded
  | .driveRst _ => .unencoded
  | .sendWrite _ _ => .unencoded
  | .runSeq _ => .unencoded
  | .resetPhase => .unencoded
  | .initPhase => .unencoded
  | .xferPlane _ => .unencoded
  | .transferRefresh _ => .unencoded
  | .deepSleepPhase => .unencoded
  | .packLut _ => .unencoded
  | .unpackLut _ => .unencoded

/-- Decode a whole encoded operation, with nothing left over. -/
def decode (c : Config) : Encoded → Except DecodeError Instr
  | .host bytes => match decodeHost c.colorBits bytes with
    | .ok (i, []) => .ok i
    | .ok (_, _ :: _) => .error .trailingBytes
    | .error e => .error e
  | .step bytes => match decodeStep bytes with
    | .ok (q, []) => .ok q.instr
    | .ok (_, _ :: _) => .error .trailingBytes
    | .error e => .error e
  | .bus frame => .ok (decodeBus frame)
  | .unencoded => .error .noEncoding

/-- The low `n` bytes of `v`, least significant byte first: the order in which the opcode table numbers
a word's bits (log 17). -/
def tableWordBytes : Nat → Nat → List Byte
  | 0, _ => []
  | n + 1, v => BitVec.ofNat 8 v :: tableWordBytes n (v / 256)

/-- The bytes of a table word of `nbits` bits and zero bytes after it, up to the longest host command
(LOADLUT, 159 bytes) (log 17). -/
def tableBytes (nbits w : Nat) : List Byte :=
  tableWordBytes ((nbits + 7) / 8) w ++ List.replicate (1 + lutImageLength - (nbits + 7) / 8) 0x00#8

/-- The bytes the table word's host command takes, without the zero bytes after it (log 17). -/
def tableCommand (colorBits nbits w : Nat) : List Byte :=
  match decodeHost colorBits (tableBytes nbits w) with
  | .ok (_, rest) => (tableBytes nbits w).take ((tableBytes nbits w).length - rest.length)
  | .error _ => tableBytes nbits w

/-- The operation a table word stands for: a word of 9 to 16 bits is a bus frame (bit 8 is dc), any
other a host command. The formats HOST and STEP of the table share the words 0x00 to 0x03, which are
read as the host port reads them (log 17). The colour has 8 bits, as in the table's fixtures. -/
def decodeTableWord (nbits w : Nat) : Option Instr :=
  if 8 < nbits ∧ nbits ≤ 16 then some (decodeBus (BitVec.ofNat 9 w))
  else match decodeHost Config.reference.colorBits (tableBytes nbits w) with
    | .ok (i, _) => some i
    | .error _ => none

end Sys2Proof
end

