-- ==== Sys2Proof/Machine/State.lean ====
section
/-! DEFINITION. The state of one EPDC instance (10_state.md R20), its reset (R35), and the reasons a
step can stop. -/

namespace Sys2Proof.Machine

/-- Why an operation faults. EPDC itself raises nothing (60_exceptions.md R260). -/
inductive Fault where
  /-- XFERPLANE or PANEL_RAM_AC of the accent plane on a one-plane panel: its addresses lie outside
  `0 .. BUFLEN-1` and do not exist (R21, R61). No host operation does this. Safe (log 13). -/
  | framebufferAddressAbsent
deriving DecidableEq, Repr

/-- Why an operation is refused. -/
inductive Refusal where
  /-- Raised by `exec` for an operation that has no meaning yet. Safe. -/
  | notModelled (mnemonic : String)
  /-- Raised by `step`: the descriptor is ill formed, so no such EPDC is constructed (R11, U5). Safe (log 16). -/
  | illFormedDescriptor
  /-- Raised by STEP_RESERVED and by RUNSEQ on a reserved tag: refused at construction, and no rule
  says what it does (R98). Safe (log 15). -/
  | reservedStepTag (tag : Byte)
  /-- Raised by RUNSEQ on a ROM image that ends before its END (R98). Safe (log 15). -/
  | truncatedSequence
  /-- Raised by LUT where no LUTCFG was given (R11 c, R183). Safe (log 15). -/
  | lutStepWithoutTable
  /-- Raised by SAMPLEBUSY with no busy pin: defined only when HAS_BUSY_PIN (R123). Safe (log 14). -/
  | noBusyPin
deriving DecidableEq, Repr

/-- PST: which phase last completed (R24). -/
inductive PanelState where
  | off
  | awake
  | ready
  | asleep
deriving DecidableEq, Repr, Inhabited

/-- CS: the bus-select latch (R26). -/
inductive Select where
  | asserted
  | deasserted
deriving DecidableEq, Repr, Inhabited

/-- The events of the trace (R15). -/
inductive Event where
  /-- `C(b)`, one complete command transaction. -/
  | c (b : Byte)
  /-- `D(b)`, one complete data transaction. -/
  | d (b : Byte)
  /-- `RST(l)`, the reset line is driven to level `l`. -/
  | rst (l : Level)
  /-- `DLY(d)`, the sequencer blocks for `d` ms. -/
  | dly (ms : Nat)
  /-- `POLL(v)`, the busy pin was sampled and read `v`. -/
  | poll (v : Level)
deriving DecidableEq, Repr, Inhabited

/-- The result of WaitIdle (40_bus_and_sync.md R124). -/
inductive WaitResult where
  | ok
  | fail
deriving DecidableEq, Repr, Inhabited

/-- The value an operation returns (R92, R104; the micro-operations' own results), log 9. -/
inductive ResultWord where
  | bits16 (w : BitVec 16)
  | bits1 (b : BitVec 1)
  | bits32 (w : BitVec 32)
  | level (v : Level)
  | wait (r : WaitResult)
  | image (bytes : List Byte)
  | lut (l : LutDescriptor)
deriving DecidableEq, Repr, Inhabited

/-- Framebuffer memory: the bytes written since construction, at strictly rising addresses, none equal to
what the unlisted address reads as (R21, log 3). -/
abbrev Memory := List Host.Cell

/-- The complete state of one EPDC instance (R20), its trace (R15), its host port (R92), its
configuration (R30, R34), and the environment's inputs. -/
structure State where
  /-- PD, the construction inputs, POLL_MS and COLOR_BITS; never written (R30). -/
  cfg : Config
  /-- FB (R21): the bytes written so far. -/
  fb : Memory
  /-- The model's own: FB's power-on bytes, from address 0; past the end a free value (log 3). -/
  fbInit : List Byte
  /-- The model's own, ghost: FILL or CLEAR has written the whole of FB since construction (R291 step 4,
  R303, log 28). -/
  fbFilled : Bool
  /-- CNT, the update counter (R22). -/
  cnt : Nat
  /-- THR, the full-refresh threshold (R23). -/
  thr : Nat
  /-- PST, ghost (R24). -/
  pst : PanelState
  /-- TMO, sticky (R25). -/
  tmo : Bool
  /-- F_ASLEEP, ghost, sticky (R24, R126). -/
  fAsleep : Bool
  /-- CS (R26). -/
  cs : Select
  /-- DC, the mode line (R26). -/
  dc : Level
  /-- RSTL, the reset line (R26). -/
  rstl : Level
  /-- SP, the sequence pointer (R28). -/
  sp : Nat
  /-- NOW, ghost, milliseconds (R29). -/
  now : Nat
  /-- The trace, oldest event first (R15). -/
  trace : List Event
  /-- The host port's command bytes not yet taken (R92, log 7). -/
  hostIn : List Byte
  /-- The result of the last operation (R92, log 9). -/
  result : Option ResultWord
  /-- The model's own: the next samples of the busy pin; past the end a free value (R123, log 5). -/
  busyIn : List Level
  /-- The model's own: how many samples were drawn past the end of `busyIn` (log 5). -/
  busyTaken : Nat
  /-- The model's own: by how much each of the next delays overshoots; past the end 0 (R14, log 6). -/
  slack : List Nat
deriving DecidableEq, Repr

/-- The state right after construction with descriptor `c` (R35, R290): nothing driven, nothing sent. -/
def State.afterConstruction (c : Config) : State where
  cfg := c
  fb := []
  fbInit := []
  fbFilled := false
  cnt := 0
  thr := c.thrInit
  pst := .off
  tmo := false
  fAsleep := false
  cs := .deasserted
  dc := Config.powerOnDc
  rstl := Config.powerOnRstl
  sp := 0
  now := 0
  trace := []
  hostIn := []
  result := none
  busyIn := []
  busyTaken := 0
  slack := []

/-- Construction refuses an ill-formed descriptor (R11). -/
def State.construct (c : Config) : Option State :=
  if c.wellFormed then some (State.afterConstruction c) else none

/-- The machine right after reset: construction (R290) with the reference descriptor (log 2). -/
def State.reset : State := State.afterConstruction Config.reference

end Sys2Proof.Machine
end

