-- ==== Sys2Proof/Machine/Operands.lean ====
section
/-! DEFINITION. The operand forms: geometry, addresses and bit positions (20_memory.md R61 to R65),
coordinates (30_encoding.md R96), colour classes and bit polarity (41_framebuffer.md R150, R151). -/

namespace Sys2Proof.Machine

/-- `ceil8(w)` (R12). -/
def ceil8 (w : Nat) : Nat := (w + 7) / 8

/-- STRIDE, the bytes of one row (R21). -/
def stride (c : Config) : Nat := ceil8 c.width

/-- PLANE, the bytes of one plane (R21). -/
def planeSize (c : Config) : Nat := stride c * c.height

/-- NPLANES (R21). -/
def planeCount (c : Config) : Nat := if c.hasAccent then 2 else 1

/-- BUFLEN (R21, R153). -/
def bufLength (c : Config) : Nat := planeSize c * planeCount c

/-- The number of a plane (R61). -/
def planeIndex : Plane → Nat
  | .bw => 0
  | .ac => 1

/-- The first address of a plane (R61). -/
def planeBase (c : Config) (p : Plane) : Nat := planeIndex p * planeSize c

/-- Does the plane exist on this panel (R61)? -/
def planePresent (c : Config) : Plane → Bool
  | .bw => true
  | .ac => c.hasAccent

/-- The RAM-write command of a plane (42_protocol.md R187). -/
def planeCommand (c : Config) : Plane → Byte
  | .bw => c.cmdRamBw
  | .ac => c.cmdRamAc

/-- ADDR(p, x, y), the byte of a pixel (R62). -/
def pixelAddr (c : Config) (p : Plane) (x y : Nat) : Nat := planeBase c p + y * stride c + x / 8

/-- BITPOS(x), the bit of a pixel in its byte (R63). -/
def bitPos (c : Config) (x : Nat) : Nat :=
  match c.bitOrder with
  | .msbFirst => 7 - x % 8
  | .lsbFirst => x % 8

/-- A coordinate operand: 16-bit two's complement (R96). -/
def coord (v : BitVec 16) : Int := v.toInt

/-- The bounds test of SETPIXEL (R65, R150). -/
def inBounds (c : Config) (x y : Int) : Bool :=
  decide (0 ≤ x ∧ x < (c.width : Int) ∧ 0 ≤ y ∧ y < (c.height : Int))

/-- The class of a listed colour, the first entry that names it. -/
def lookupClass (color : Nat) : List (Nat × ColorClass) → Option ColorClass
  | [] => none
  | (k, v) :: rest => if k = color then some v else lookupClass color rest

/-- CLASSIFY (R8, log 10). -/
def classOf (c : Config) (color : Nat) : ColorClass := (lookupClass color c.classify).getD c.classifyOther

/-- The plane and the bit value a pixel write of class `k` goes to (R150). -/
def pixelTarget (c : Config) (k : ColorClass) : Plane × Bool :=
  match k, c.hasAccent with
  | .ac, true => (.ac, c.acBit)
  | .bg, _ => (.bw, !c.fgBit)
  | .fg, _ => (.bw, c.fgBit)
  | .ac, false => (.bw, c.fgBit)

/-- `rep8(b)` (R12). -/
def rep8 (b : Bool) : Byte := if b then 0xFF#8 else 0x00#8

/-- The bytes FILL writes to plane 0 and to plane 1 (R151). -/
def fillBytes (c : Config) (k : ColorClass) : Byte × Byte :=
  match k, c.hasAccent with
  | .ac, true => (rep8 (!c.fgBit), rep8 c.acBit)
  | .bg, _ => (rep8 (!c.fgBit), rep8 (!c.acBit))
  | .fg, _ => (rep8 c.fgBit, rep8 (!c.acBit))
  | .ac, false => (rep8 c.fgBit, rep8 (!c.acBit))

/-- `old` with bit `i` set to `v`, the other seven bits unchanged (R150). -/
def replaceBit (old : Byte) (i : Nat) (v : Bool) : Byte :=
  if v then old ||| (1#8 <<< i) else old &&& ~~~(1#8 <<< i)

/-- T2 of the Reset phase: the override if given, else RST_T2_MS (42_protocol.md R185). -/
def resetHoldMs (c : Config) : Nat := c.rstOverrideMs.getD c.rstT2Ms

/-- The ROM image of a sequence (R180). -/
def seqRom (c : Config) : SeqId → List Byte
  | .init => c.initRom
  | .fullPre => c.fullPreRom

/-- GETTYPE's result: 0 binary, 1 colour (R104, R156). -/
def displayType (c : Config) : BitVec 1 := if c.hasAccent then 1#1 else 0#1

end Sys2Proof.Machine
end

