-- ==== Sys2Proof/Machine/Flags.lean ====
section
/-! DEFINITION. Every flag computation the spec gives: TMO (10_state.md R25), F_ASLEEP
(40_bus_and_sync.md R126), the full/partial decision and the counter (42_protocol.md R189, R190). EPDC
has no condition code (R25). -/

namespace Sys2Proof.Machine

/-- F_ASLEEP after a bus transaction: set when PST = ASLEEP, else kept (R120, R126). -/
def asleepAfterTransaction (s : State) : Bool := s.fAsleep || decide (s.pst = .asleep)

/-- A timeout: TMO is set, and it is never cleared (R25, R124). -/
def recordTimeout (s : State) : State := { s with tmo := true }

/-- `full = (not COUNTER_BASED) or (CNT = 0)` (R189). -/
def isFull (s : State) : Bool := !s.cfg.counterBased || decide (s.cnt = 0)

/-- CNT after an UPDATE (R190). -/
def nextCount (s : State) : Nat := if s.cfg.counterBased then (s.cnt + 1) % s.thr else s.cnt

/-- The end of an UPDATE: the counter takes its next value (R190). -/
def countUpdate (s : State) : State := { s with cnt := nextCount s }

end Sys2Proof.Machine
end

