-- ==== Sys2Proof/Machine/Ops.lean ====
section
/-! DEFINITION. The named operations over the framebuffer, the bus, the pins and time
(40_bus_and_sync.md), and the host port. EPDC takes no exception (60_exceptions.md R267, R268), so there
is no exception entry and no return; what a timeout leaves is `recordTimeout`. -/

namespace Sys2Proof.Machine

/-- Go on with `f` if the operation before it gave a next state. -/
def andThen (o : Host.Outcome State Fault Refusal) (f : State → Host.Outcome State Fault Refusal) :
    Host.Outcome State Fault Refusal :=
  match o with
  | .next s => f s
  | .fault r => .fault r
  | .refused r => .refused r

/-- The next state, where there is one. -/
def nextState (o : Host.Outcome State Fault Refusal) : Option State :=
  match o with
  | .next s => some s
  | .fault _ => none
  | .refused _ => none

/-! ### Framebuffer memory (R21, R60) -/

/-- What an address that is not listed reads as: its power-on byte (R21, U3, log 3). -/
def unwritten (init : List Byte) (a : Nat) : Byte := init.getD a (Config.powerOnByte a)

/-- The listed byte at an address. -/
def Memory.find : Memory → Nat → Option Byte
  | [], _ => none
  | (k, v) :: rest, a => if k = a then some v else Memory.find rest a

/-- `FB[a]`: the listed byte, else what an unlisted address reads as (R13, R60). -/
def Memory.read (init : List Byte) (m : Memory) (a : Nat) : Byte := (m.find a).getD (unwritten init a)

/-- List `v` at `a`, keeping the addresses strictly rising. -/
def Memory.insert : Memory → Nat → Byte → Memory
  | [], a, v => [(a, v)]
  | (k, w) :: rest, a, v =>
    if a < k then (a, v) :: (k, w) :: rest
    else if a = k then (a, v) :: rest
    else (k, w) :: Memory.insert rest a v

/-- Unlist `a`. -/
def Memory.erase : Memory → Nat → Memory
  | [], _ => []
  | (k, w) :: rest, a => if k = a then Memory.erase rest a else (k, w) :: Memory.erase rest a

/-- `FB[a] <- v` (R13): a byte equal to what an unlisted address reads as is not listed. -/
def Memory.write (init : List Byte) (m : Memory) (a : Nat) (v : Byte) : Memory :=
  if v = unwritten init a then m.erase a else m.insert a v

/-- Are the addresses strictly rising, all at least `lo`? -/
def Memory.risingFrom (lo : Nat) : Memory → Bool
  | [] => true
  | (k, _) :: rest => decide (lo ≤ k) && Memory.risingFrom (k + 1) rest

/-- The canonical form: addresses strictly rising, no entry equal to what an unlisted address reads as. -/
def Memory.wf (init : List Byte) (m : Memory) : Bool :=
  m.risingFrom 0 && m.all (fun cell => decide (cell.2 ≠ unwritten init cell.1))

/-- Every listed address lies below `len` (R60). -/
def Memory.below (len : Nat) (m : Memory) : Bool := m.all (fun cell => decide (cell.1 < len))

/-- Read byte `a` of FB (R13). -/
def fbRead (s : State) (a : Nat) : Byte := s.fb.read s.fbInit a

/-- Write byte `a` of FB (R13). -/
def fbWrite (a : Nat) (v : Byte) (s : State) : State := { s with fb := s.fb.write s.fbInit a v }

/-- Write `v` to the `n` bytes from `base`, in increasing address (R202). -/
def fbFill (base : Nat) (v : Byte) : Nat → State → State
  | 0, s => s
  | n + 1, s => fbWrite (base + n) v (fbFill base v n s)

/-- The ghost mark of a FILL or a CLEAR: no byte of FB is a power-on byte any more (R291 step 4, R303,
log 28). -/
def markFilled (s : State) : State := { s with fbFilled := true }

/-- FB plane by plane: `b0` to every byte of plane 0, then `b1` to every byte of plane 1 where there is
one (R151, R152), and the mark that it was done. -/
def fbFillPlanes (b0 b1 : Byte) (s : State) : State :=
  let s1 := fbFill (planeBase s.cfg .bw) b0 (planeSize s.cfg) s
  markFilled (if s.cfg.hasAccent then fbFill (planeBase s.cfg .ac) b1 (planeSize s.cfg) s1 else s1)

/-- The bytes of a plane in increasing address (R68, R187). -/
def planeBytes (s : State) (p : Plane) : List Byte :=
  (List.range (planeSize s.cfg)).map fun k => fbRead s (planeBase s.cfg p + k)

/-! ### The bus (R120, R121, R122) -/

/-- The event of one transaction: mode low a command, mode high data (R15, R91). -/
def busEvent : Level → Byte → Event
  | .low, b => .c b
  | .high, b => .d b

/-- One complete transaction in mode `l`: the ghost mark, select asserted, the mode line, the byte,
select deasserted, the event (R91, R120, R121). Select is deasserted again when it ends (log 25). -/
def transact (l : Level) (b : Byte) (s : State) : State :=
  { s with fAsleep := asleepAfterTransaction s, cs := .deasserted, dc := l, trace := s.trace ++ [busEvent l b] }

/-- `SendCommand(b)` (R120). -/
def sendCommand (b : Byte) (s : State) : State := transact .low b s

/-- `SendData(b)` (R121). -/
def sendByte (b : Byte) (s : State) : State := transact .high b s

/-- `SendPayload(l)` (R122). -/
def sendPayload : List Byte → State → State
  | [], s => s
  | b :: rest, s => sendPayload rest (sendByte b s)

/-- `SendWrite(c, l)` (R122). -/
def sendWrite (c : Byte) (l : List Byte) (s : State) : State := sendPayload l (sendCommand c s)

/-- A descriptor field's command and payload (R95). -/
def sendPanelWrite (w : PanelWrite) (s : State) : State := sendWrite w.cmd w.payload s

/-! ### Time and the pins (R123, R125) -/

/-- `Delay(d)` (R123): NOW advances by `d` and by what this delay overshoots, 0 in the reference
reading (R14, log 6). -/
def delayFor (d : Nat) (s : State) : State :=
  { s with now := s.now + d + s.slack.headD 0, slack := s.slack.tail, trace := s.trace ++ [.dly d] }

/-- The level the busy pin reads at this sample: the next listed one, else a free draw (R123, log 5). -/
def busyNow (s : State) : Level := s.busyIn.headD (Config.busyLevel s.busyTaken)

/-- `SampleBusy()`'s effect (R123): the event; the sample is used up and not kept (R27). -/
def afterSample (s : State) : State :=
  { s with
    busyIn := s.busyIn.tail
    busyTaken := if s.busyIn = [] then s.busyTaken + 1 else s.busyTaken
    trace := s.trace ++ [.poll (busyNow s)] }

/-- `DriveRST(l)` (R125). -/
def driveLine (l : Level) (s : State) : State := { s with rstl := l, trace := s.trace ++ [.rst l] }

/-- The poll loop of WaitIdle (R124): sample, then the elapsed-time test, then `Delay(POLL_MS)`. The
third argument is fuel; with POLL_MS at least 1 the deadline comes before it ends (log 19). -/
def pollLoop (t t0 : Nat) : Nat → State → WaitResult × State
  | 0, s => (.fail, recordTimeout s)
  | fuel + 1, s =>
    if busyNow s ≠ s.cfg.busyActive then (.ok, afterSample s)
    else if t ≤ (afterSample s).now - t0 then (.fail, recordTimeout (afterSample s))
    else pollLoop t t0 fuel (delayFor s.cfg.pollMs (afterSample s))

/-- `WaitIdle(T)` (R124). -/
def waitUntilIdle (t : Nat) (s : State) : WaitResult × State :=
  if s.cfg.hasBusyPin then pollLoop t s.now (t + 1) s else (.ok, delayFor s.cfg.nobusyDelayMs s)

/-- `WaitIdle(IDLE_TIMEOUT_MS)` with its result discarded, as every caller has it (R124). -/
def pace (s : State) : State := (waitUntilIdle s.cfg.idleTimeoutMs s).2

/-! ### Registers with one writer -/

/-- A phase has completed (R24). -/
def setPst (p : PanelState) (s : State) : State := { s with pst := p }

/-- `SP <- v` (R28). -/
def setSp (v : Nat) (s : State) : State := { s with sp := v }

/-- `THR <- n` (R23). -/
def setThr (n : Nat) (s : State) : State := { s with thr := n }

/-- The operation returns a value (R92, log 9). -/
def setResult (r : ResultWord) (s : State) : State := { s with result := some r }

/-! ### The host port (R92) -/

/-- The next command the host presents and the bytes after it; none while none is complete (log 8). -/
def fetch (s : State) : Option (Instr × List Byte) :=
  match decodeHost s.cfg.colorBits s.hostIn with
  | .ok r => some r
  | .error _ => none

/-- The command is taken from the port and the last result is gone (R92, log 7, log 9). -/
def accept (rest : List Byte) (s : State) : State := { s with hostIn := rest, result := none }

end Sys2Proof.Machine
end

