-- ==== Sys2Proof/Machine/Framebuffer.lean ====
section
/-! DEFINITION. The framebuffer operations and the getters (41_framebuffer.md). None emits an event,
waits, or touches the bus. -/

namespace Sys2Proof.Machine

/-- Write one pixel that is in bounds: bit `BITPOS(x)` of byte `ADDR(p, x, y)`, by read-modify-write (R150). -/
def writePixel (color x y : Nat) (s : State) : State :=
  let target := pixelTarget s.cfg (classOf s.cfg color)
  let a := pixelAddr s.cfg target.1 x y
  fbWrite a (replaceBit (fbRead s a) (bitPos s.cfg x) target.2) s

/-- SETPIXEL (R150): out of bounds it is a no-op, tested before the colour is classified (R65, R266). -/
def execSetPixel (x y : BitVec 16) (color : Nat) (s : State) : Host.Outcome State Fault Refusal :=
  .next (if inBounds s.cfg (coord x) (coord y) then writePixel color (coord x).toNat (coord y).toNat s else s)

/-- FILL (R151): every byte of every plane, padding included. -/
def execFill (color : Nat) (s : State) : Host.Outcome State Fault Refusal :=
  .next (fbFillPlanes (fillBytes s.cfg (classOf s.cfg color)).1 (fillBytes s.cfg (classOf s.cfg color)).2 s)

/-- CLEAR (R152): the idle patterns. -/
def execClear (s : State) : Host.Outcome State Fault Refusal := .next (fbFillPlanes s.cfg.idle0 s.cfg.idle1 s)

/-- BUFLEN (R153), 32 bits unsigned (R104). -/
def execBufLen (s : State) : Host.Outcome State Fault Refusal :=
  .next (setResult (.bits32 (BitVec.ofNat 32 (bufLength s.cfg))) s)

/-- GETWIDTH (R154), 16 bits unsigned (R104). -/
def execGetWidth (s : State) : Host.Outcome State Fault Refusal :=
  .next (setResult (.bits16 (BitVec.ofNat 16 s.cfg.width)) s)

/-- GETHEIGHT (R155), 16 bits unsigned (R104). -/
def execGetHeight (s : State) : Host.Outcome State Fault Refusal :=
  .next (setResult (.bits16 (BitVec.ofNat 16 s.cfg.height)) s)

/-- GETTYPE (R156), 1 bit (R104). -/
def execGetType (s : State) : Host.Outcome State Fault Refusal := .next (setResult (.bits1 (displayType s.cfg)) s)

end Sys2Proof.Machine
end

