-- ==== Sys2Proof/Machine/Lut.lean ====
section
/-! DEFINITION. The waveform LUT: PackLut, UnpackLut, LoadLut (43_lut.md), and the meanings of LOADLUT,
PACKLUT and UNPACKLUT. -/

namespace Sys2Proof.Machine

/-- One byte of the phase-code region: four 2-bit codes, phase A in bits 7:6 (R231, R232). -/
def phaseByte (l : LutDescriptor) (s g : Nat) : Byte :=
  ((BitVec.ofNat 8 (l.vsAt s g 0) &&& 3#8) <<< 6) ||| ((BitVec.ofNat 8 (l.vsAt s g 1) &&& 3#8) <<< 4) |||
    ((BitVec.ofNat 8 (l.vsAt s g 2) &&& 3#8) <<< 2) ||| (BitVec.ofNat 8 (l.vsAt s g 3) &&& 3#8)

/-- One byte of the frame-rate region: the even group's nibble in bits 7:4 (R231, R232). -/
def frameRateByte (l : LutDescriptor) (i : Nat) : Byte :=
  ((BitVec.ofNat 8 (l.frAt (2 * i)) &&& 15#8) <<< 4) ||| (BitVec.ofNat 8 (l.frAt (2 * i + 1)) &&& 15#8)

/-- Flag `8*i + b` in its place, bit `7 - b` of its byte (R231, R232). -/
def flagBit (l : LutDescriptor) (i b : Nat) : Byte := (BitVec.ofNat 8 (l.nsAt (8 * i + b)) &&& 1#8) <<< (7 - b)

/-- One byte of the next-state region: flag `8*i` in bit 7 (R231, R232). -/
def flagByte (l : LutDescriptor) (i : Nat) : Byte :=
  flagBit l i 0 ||| flagBit l i 1 ||| flagBit l i 2 ||| flagBit l i 3 ||| flagBit l i 4 ||| flagBit l i 5 |||
    flagBit l i 6 ||| flagBit l i 7

/-- `PackLut(L)`, the image IMG(L): five regions in the order of R231 (R232). -/
def packImage (l : LutDescriptor) : List Byte :=
  (List.range 60).map (fun k => phaseByte l (k / 12) (k % 12)) ++
    (List.range 84).map (fun k => BitVec.ofNat 8 (l.tAt (k / 7) (k % 7))) ++
    (List.range 6).map (fun i => frameRateByte l i) ++
    (List.range 3).map (fun i => flagByte l i) ++
    (List.range 5).map (fun i => BitVec.ofNat 8 (l.scAt i))

/-- Byte `k` of an image. -/
def imageByte (img : List Byte) (k : Nat) : Byte := img.getD k 0#8

/-- `VS[s][g][ph]` of an image (R233). -/
def unpackVs (img : List Byte) (s g ph : Nat) : Nat :=
  ((imageByte img (12 * s + g) >>> (6 - 2 * ph)) &&& 3#8).toNat

/-- `T[g][k]` of an image (R233). -/
def unpackT (img : List Byte) (g k : Nat) : Nat := (imageByte img (60 + 7 * g + k)).toNat

/-- `FR[g]` of an image (R233). -/
def unpackFr (img : List Byte) (g : Nat) : Nat :=
  ((imageByte img (144 + g / 2) >>> (if g % 2 = 0 then 4 else 0)) &&& 15#8).toNat

/-- `NS[j]` of an image (R233). -/
def unpackNs (img : List Byte) (j : Nat) : Nat := ((imageByte img (150 + j / 8) >>> (7 - j % 8)) &&& 1#8).toNat

/-- `S[i]` of an image (R233). -/
def unpackSc (img : List Byte) (i : Nat) : Nat := (imageByte img (153 + i)).toNat

/-- `UnpackLut(IMG)` (R233). -/
def unpackImage (img : List Byte) : LutDescriptor where
  vs := (List.range 240).map fun i => unpackVs img (i / 48) (i % 48 / 4) (i % 4)
  t := (List.range 84).map fun i => unpackT img (i / 7) (i % 7)
  fr := (List.range 12).map fun g => unpackFr img g
  ns := (List.range 24).map fun j => unpackNs img j
  sc := (List.range 5).map fun i => unpackSc img i

/-- `LoadLut(L)` on the image of L: nothing on a model with no LUT register (R235). -/
def sendLut (image : List Byte) (s : State) : State :=
  match s.cfg.cmdLut with
  | none => s
  | some c => sendWrite c image s

/-- LOADLUT (R235): the operand is not kept, no field of it is checked (R236). -/
def execLoadLut (image : List Byte) (s : State) : Host.Outcome State Fault Refusal := .next (sendLut image s)

/-- PACKLUT (R232): returns the image. -/
def execPackLut (l : LutDescriptor) (s : State) : Host.Outcome State Fault Refusal :=
  .next (setResult (.image (packImage l)) s)

/-- UNPACKLUT (R233): returns the descriptor. -/
def execUnpackLut (image : List Byte) (s : State) : Host.Outcome State Fault Refusal :=
  .next (setResult (.lut (unpackImage image)) s)

end Sys2Proof.Machine
end

