-- ==== Sys2Proof/Machine/Sequence.lean ====
section
/-! DEFINITION. The sequence interpreter: the meanings of the STEP rows and of RUNSEQ (42_protocol.md
R180 to R184, 30_encoding.md R98). -/

namespace Sys2Proof.Machine

/-- Step `W c, payload`: one register write; SP moves past its `3 + n` bytes (R181, R180). -/
def stepWrite (c : Byte) (payload : List Byte) (s : State) : State :=
  setSp (s.sp + (3 + payload.length)) (sendWrite c payload s)

/-- Step `WAIT`: `WaitIdle(IDLE_TIMEOUT_MS)`, result discarded; SP moves by 1 (R182, R180). -/
def stepWait (s : State) : State := setSp (s.sp + 1) (pace s)

/-- Step `LUT`: `LoadLut(LUTCFG)`; SP moves by 1 (R183, R180). With no LUTCFG there is nothing to load;
such a descriptor is ill formed (R11 c, log 15). -/
def stepLut (s : State) : Host.Outcome State Fault Refusal :=
  match s.cfg.lutCfg with
  | some l => .next (setSp (s.sp + 1) (sendLut (packImage l) s))
  | none => .refused .lutStepWithoutTable

/-- Step `END`: SP <- 0 (R184). -/
def stepEnd (s : State) : State := setSp 0 s

/-- The loop of RunSeq over a ROM image, from SP: read the step at SP, perform it, go on; END ends it
(R180). The second argument is fuel, more than the image's length. -/
def runRom (rom : List Byte) : Nat → State → Host.Outcome State Fault Refusal
  | 0, _ => .refused .truncatedSequence
  | fuel + 1, s =>
    match decodeStep (rom.drop s.sp) with
    | .error _ => .refused .truncatedSequence
    | .ok (.stop, _) => .next (stepEnd s)
    | .ok (.write c payload, _) => runRom rom fuel (stepWrite c payload s)
    | .ok (.wait, _) => runRom rom fuel (stepWait s)
    | .ok (.lut, _) => andThen (stepLut s) (runRom rom fuel)
    | .ok (.reserved tag, _) => .refused (.reservedStepTag tag)

/-- `RunSeq(S)`: SP <- 0, then the loop (R180). -/
def runSequence (q : SeqId) (s : State) : Host.Outcome State Fault Refusal :=
  runRom (seqRom s.cfg q) ((seqRom s.cfg q).length + 1) (setSp 0 s)

/-- END (R184). -/
def execSeqEnd (s : State) : Host.Outcome State Fault Refusal := .next (stepEnd s)

/-- W (R181). -/
def execSeqWrite (c : Byte) (payload : List Byte) (s : State) : Host.Outcome State Fault Refusal :=
  .next (stepWrite c payload s)

/-- WAIT (R182). -/
def execSeqWait (s : State) : Host.Outcome State Fault Refusal := .next (stepWait s)

/-- LUT (R183). -/
def execSeqLut (s : State) : Host.Outcome State Fault Refusal := stepLut s

/-- STEP_RESERVED: an ill-formed ROM is refused, and no rule says what a reserved tag does (R98). -/
def execStepReserved (tag : Byte) (_ : State) : Host.Outcome State Fault Refusal := .refused (.reservedStepTag tag)

/-- RUNSEQ (R180). -/
def execRunSeq (q : SeqId) (s : State) : Host.Outcome State Fault Refusal := runSequence q s

end Sys2Proof.Machine
end

