-- ==== Sys2Proof/Machine/Protocol.lean ====
section
/-! DEFINITION. The four phases of the protocol machine and the host operations that run them
(42_protocol.md R185 to R195), the pseudo-operation and the reserved opcodes (30_encoding.md R103, R99). -/

namespace Sys2Proof.Machine

/-- The pulse of the Reset phase: initial level, N ms, toggled level, M ms, initial level (R185). -/
def resetPulse (s : State) : State :=
  driveLine s.cfg.rstL0
    (delayFor (resetHoldMs s.cfg)
      (driveLine s.cfg.rstL0.not (delayFor s.cfg.rstT1Ms (driveLine s.cfg.rstL0 s))))

/-- Reset phase: the pulse, then PST <- AWAKE (R185). -/
def runResetPhase (s : State) : State := setPst .awake (resetPulse s)

/-- Initialize phase: `RunSeq(INIT) ; PST <- READY` (R186). -/
def runInitPhase (s : State) : Host.Outcome State Fault Refusal :=
  andThen (runSequence .init s) fun t => .next (setPst .ready t)

/-- `XferPlane(p)` for a plane the panel has: the RAM-write command, then every byte of the plane as
stored, in increasing address (R187). -/
def sendPlane (p : Plane) (s : State) : State := sendWrite (planeCommand s.cfg p) (planeBytes s p) s

/-- What Transfer & Refresh sends after `RunSeq(FULL_PRE)`: the planes and the refresh command (R188). -/
def transferWrites (full : Bool) (s : State) : State :=
  let s1 := sendPlane .bw s
  let s2 := if full && s.cfg.hasAccent then sendPlane .ac s1 else s1
  sendPanelWrite s.cfg.refresh s2

/-- What follows `RunSeq(FULL_PRE)` in Transfer & Refresh: the writes, then the wait (R188). -/
def transferPlanes (full : Bool) (s : State) : State := pace (transferWrites full s)

/-- Transfer & Refresh phase (R188). -/
def runTransferRefresh (full : Bool) (s : State) : Host.Outcome State Fault Refusal :=
  if full then andThen (runSequence .fullPre s) fun t => .next (transferPlanes true t)
  else .next (transferPlanes false s)

/-- The optional power-off command and its wait (R191). -/
def powerDown (s : State) : State :=
  match s.cfg.powerOff with
  | some w => pace (sendPanelWrite w s)
  | none => s

/-- Deep Sleep phase: PST becomes ASLEEP only after the last byte of the sleep command (R191). -/
def runDeepSleepPhase (s : State) : State := setPst .asleep (sendPanelWrite s.cfg.sleep (powerDown s))

/-- SETFULLEVERY's effect: `if COUNTER_BASED and n >= 1 then THR <- n` (R195). -/
def setFullEvery (n : Nat) (s : State) : State :=
  if s.cfg.counterBased && decide (1 ≤ n) then setThr n s else s

/-- SETUP: `ResetPhase() ; InitializePhase()` (R192). -/
def execSetup (s : State) : Host.Outcome State Fault Refusal := runInitPhase (runResetPhase s)

/-- UPDATE: the decision, Transfer & Refresh, the counter (R193, R189, R190). -/
def execUpdate (s : State) : Host.Outcome State Fault Refusal :=
  andThen (runTransferRefresh (isFull s) s) fun t => .next (countUpdate t)

/-- SHUTDOWN: `DeepSleepPhase()` (R194). -/
def execShutdown (s : State) : Host.Outcome State Fault Refusal := .next (runDeepSleepPhase s)

/-- SETFULLEVERY (R195), its operand an unsigned number (R96). -/
def execSetFullEvery (n : BitVec 32) (s : State) : Host.Outcome State Fault Refusal := .next (setFullEvery n.toNat s)

/-- ALWAYSFULL is SETFULLEVERY 1 (R103). -/
def execAlwaysFull (s : State) : Host.Outcome State Fault Refusal := .next (setFullEvery 1 s)

/-- HOST_RESERVED: no state changes, no event, no result (R99). -/
def execHostReserved (_ : Byte) (s : State) : Host.Outcome State Fault Refusal := .next s

/-- RESETPHASE (R185). -/
def execResetPhase (s : State) : Host.Outcome State Fault Refusal := .next (runResetPhase s)

/-- INITPHASE (R186). -/
def execInitPhase (s : State) : Host.Outcome State Fault Refusal := runInitPhase s

/-- XFERPLANE (R187): a plane the panel lacks has no addresses (R21, log 13). -/
def execXferPlane (p : Plane) (s : State) : Host.Outcome State Fault Refusal :=
  if planePresent s.cfg p then .next (sendPlane p s) else .fault .framebufferAddressAbsent

/-- TRANSFERREFRESH (R188). -/
def execTransferRefresh (full : Bool) (s : State) : Host.Outcome State Fault Refusal := runTransferRefresh full s

/-- DEEPSLEEPPHASE (R191). -/
def execDeepSleepPhase (s : State) : Host.Outcome State Fault Refusal := .next (runDeepSleepPhase s)

end Sys2Proof.Machine
end

