-- ==== Sys2Proof/Machine/Bus.lean ====
section
/-! DEFINITION. The meanings of the BUS rows: the two frames (40_bus_and_sync.md R120, R121) and the six
panel commands of 30_encoding.md R95, each with what the opcode table says follows it (log 12); and the
line-level expansion of a frame (R91), which is informative (00_scope.md R7, log 22). -/

namespace Sys2Proof.Machine

/-- SENDCMD (R120). -/
def execSendCmd (b : Byte) (s : State) : Host.Outcome State Fault Refusal := .next (sendCommand b s)

/-- SENDDATA (R121). -/
def execSendData (b : Byte) (s : State) : Host.Outcome State Fault Refusal := .next (sendByte b s)

/-- PANEL_RAM_BW: CMD_RAM_BW followed by the PLANE bytes of plane 0 (R95, R187). -/
def execPanelRamBw (s : State) : Host.Outcome State Fault Refusal := .next (sendPlane .bw s)

/-- PANEL_RAM_AC: CMD_RAM_AC followed by the PLANE bytes of plane 1 (R95, R187), where there is one (log 13). -/
def execPanelRamAc (s : State) : Host.Outcome State Fault Refusal :=
  if planePresent s.cfg .ac then .next (sendPlane .ac s) else .fault .framebufferAddressAbsent

/-- PANEL_REFRESH: REFRESH.cmd followed by REFRESH.payload (R95, R188). -/
def execPanelRefresh (s : State) : Host.Outcome State Fault Refusal := .next (sendPanelWrite s.cfg.refresh s)

/-- PANEL_SLEEP: SLEEP.cmd followed by SLEEP.payload (R95, R191). PST is the phase's to write. -/
def execPanelSleep (s : State) : Host.Outcome State Fault Refusal := .next (sendPanelWrite s.cfg.sleep s)

/-- PANEL_POWER_OFF: POWER_OFF.cmd, its payload, then WaitIdle; nothing where it is absent (R95, R191). -/
def execPanelPowerOff (s : State) : Host.Outcome State Fault Refusal := .next (powerDown s)

/-- PANEL_LUT_WRITE: CMD_LUT followed by the 158 bytes of the image; nothing where it is absent (R95, R235). -/
def execPanelLutWrite (image : List Byte) (s : State) : Host.Outcome State Fault Refusal := .next (sendLut image s)

/-- What happens on the wires of the bus, in order (R91, R271). -/
inductive LineStep where
  /-- Bus select is driven. -/
  | select (level : Level)
  /-- The mode line is driven. -/
  | mode (level : Level)
  /-- A bit is put on the data-out wire. -/
  | data (bit : Bool)
  /-- The bus clock is driven. -/
  | clock (level : Level)
deriving DecidableEq, Repr

/-- The level of bus select: asserted low (R91, D2). -/
def selectLevel : Select → Level
  | .asserted => .low
  | .deasserted => .high

/-- The level at which the bus clock idles: low (R91, R271, D2). -/
def clockIdle : Level := .low

/-- The level the bus clock goes to at the edge on which the panel samples: the rising one (R91, R271, D2). -/
def clockSampling : Level := .high

/-- The bits of a byte, most significant first (R67, R91). -/
def wireBits (b : Byte) : List Bool := [7, 6, 5, 4, 3, 2, 1, 0].map fun i => b.getLsbD i

/-- One bit at line level: on the data-out wire, then one pulse of the clock from its idle level and back
(R91 step 3). -/
def bitLineSteps (bit : Bool) : List LineStep := [.data bit, .clock clockSampling, .clock clockIdle]

/-- One transaction at line level: select, mode, eight bits, deselect (R91). -/
def frameLineSteps (dc : Level) (b : Byte) : List LineStep :=
  [.select (selectLevel .asserted), .mode dc] ++ (wireBits b).flatMap bitLineSteps ++
    [.select (selectLevel .deasserted)]

/-- What the panel samples: the data wire at every sampling edge of the clock (R91, D2). `clk` and `wire`
are the levels of the clock and of the data wire before the first step. -/
def sampledBits (clk : Level) (wire : Bool) : List LineStep → List Bool
  | [] => []
  | .select _ :: rest => sampledBits clk wire rest
  | .mode _ :: rest => sampledBits clk wire rest
  | .data bit :: rest => sampledBits clk bit rest
  | .clock l :: rest =>
    if clk = clockIdle ∧ l = clockSampling then wire :: sampledBits l wire rest else sampledBits l wire rest

/-- The bus part of a trace at line level; the other events are not on the bus (R7, R91). -/
def traceLineSteps : List Event → List LineStep
  | [] => []
  | .c b :: rest => frameLineSteps .low b ++ traceLineSteps rest
  | .d b :: rest => frameLineSteps .high b ++ traceLineSteps rest
  | .rst _ :: rest => traceLineSteps rest
  | .dly _ :: rest => traceLineSteps rest
  | .poll _ :: rest => traceLineSteps rest

end Sys2Proof.Machine
end

