-- ==== Sys2Proof/Machine/Micro.lean ====
section
/-! DEFINITION. The meanings of the micro-operations of 40_bus_and_sync.md that have a row of their own.
Only other rules perform them (30_encoding.md R90). -/

namespace Sys2Proof.Machine

/-- DELAY (R123). -/
def execDelay (d : Nat) (s : State) : Host.Outcome State Fault Refusal := .next (delayFor d s)

/-- SAMPLEBUSY (R123): returns the level; defined only when HAS_BUSY_PIN (log 14). -/
def execSampleBusy (s : State) : Host.Outcome State Fault Refusal :=
  if s.cfg.hasBusyPin then .next (setResult (.level (busyNow s)) (afterSample s)) else .refused .noBusyPin

/-- WAITIDLE (R124): returns OK or FAIL. -/
def execWaitIdle (t : Nat) (s : State) : Host.Outcome State Fault Refusal :=
  .next (setResult (.wait (waitUntilIdle t s).1) (waitUntilIdle t s).2)

/-- DRIVERST (R125). -/
def execDriveRst (l : Level) (s : State) : Host.Outcome State Fault Refusal := .next (driveLine l s)

/-- SENDWRITE (R122). -/
def execSendWrite (c : Byte) (l : List Byte) (s : State) : Host.Outcome State Fault Refusal := .next (sendWrite c l s)

end Sys2Proof.Machine
end

