-- ==== Sys2Proof/Machine/Dispatch.lean ====
section
/-! DEFINITION. One arm per operation. -/

namespace Sys2Proof.Machine

def exec (i : Instr) (s : State) : Host.Outcome State Fault Refusal :=
  match i with
  | .setup => Sys2Proof.Machine.execSetup s
  | .update => Sys2Proof.Machine.execUpdate s
  | .shutdown => Sys2Proof.Machine.execShutdown s
  | .setFullEvery n => Sys2Proof.Machine.execSetFullEvery n s
  | .setPixel x y color => Sys2Proof.Machine.execSetPixel x y color s
  | .fill color => Sys2Proof.Machine.execFill color s
  | .clear => Sys2Proof.Machine.execClear s
  | .getWidth => Sys2Proof.Machine.execGetWidth s
  | .getHeight => Sys2Proof.Machine.execGetHeight s
  | .getType => Sys2Proof.Machine.execGetType s
  | .bufLen => Sys2Proof.Machine.execBufLen s
  | .loadLut image => Sys2Proof.Machine.execLoadLut image s
  | .alwaysFull => Sys2Proof.Machine.execAlwaysFull s
  | .hostReserved opcode => Sys2Proof.Machine.execHostReserved opcode s
  | .seqEnd => Sys2Proof.Machine.execSeqEnd s
  | .seqWrite c payload => Sys2Proof.Machine.execSeqWrite c payload s
  | .seqWait => Sys2Proof.Machine.execSeqWait s
  | .seqLut => Sys2Proof.Machine.execSeqLut s
  | .stepReserved tag => Sys2Proof.Machine.execStepReserved tag s
  | .sendCmd b => Sys2Proof.Machine.execSendCmd b s
  | .sendData b => Sys2Proof.Machine.execSendData b s
  | .panelRamBw => Sys2Proof.Machine.execPanelRamBw s
  | .panelRamAc => Sys2Proof.Machine.execPanelRamAc s
  | .panelRefresh => Sys2Proof.Machine.execPanelRefresh s
  | .panelSleep => Sys2Proof.Machine.execPanelSleep s
  | .panelPowerOff => Sys2Proof.Machine.execPanelPowerOff s
  | .panelLutWrite image => Sys2Proof.Machine.execPanelLutWrite image s
  | .delay d => Sys2Proof.Machine.execDelay d s
  | .sampleBusy => Sys2Proof.Machine.execSampleBusy s
  | .waitIdle t => Sys2Proof.Machine.execWaitIdle t s
  | .driveRst l => Sys2Proof.Machine.execDriveRst l s
  | .sendWrite c l => Sys2Proof.Machine.execSendWrite c l s
  | .runSeq q => Sys2Proof.Machine.execRunSeq q s
  | .resetPhase => Sys2Proof.Machine.execResetPhase s
  | .initPhase => Sys2Proof.Machine.execInitPhase s
  | .xferPlane p => Sys2Proof.Machine.execXferPlane p s
  | .transferRefresh full => Sys2Proof.Machine.execTransferRefresh full s
  | .deepSleepPhase => Sys2Proof.Machine.execDeepSleepPhase s
  | .packLut l => Sys2Proof.Machine.execPackLut l s
  | .unpackLut image => Sys2Proof.Machine.execUnpackLut image s

end Sys2Proof.Machine
end

