-- ==== Sys2Proof/Machine/Step.lean ====
section
/-! DEFINITION. One step: EPDC takes the next host command and performs it to completion
(30_encoding.md R92, 20_memory.md R70). -/

namespace Sys2Proof.Machine

/-- One step. With no complete command on the host port EPDC is idle, holding its state (60_exceptions.md
R274, log 8). A descriptor that is ill formed is no EPDC (R11, log 16). -/
def step (s : State) : Host.Outcome State Fault Refusal :=
  if s.cfg.wellFormed then
    match fetch s with
    | some (i, rest) => exec i (accept rest s)
    | none => .next s
  else .refused .illFormedDescriptor

/-- The table word's command placed on the host port, where `step` fetches (log 17). -/
def State.withFetchWord (s : State) (nbits w : Nat) : State :=
  { s with hostIn := tableCommand s.cfg.colorBits nbits w }

end Sys2Proof.Machine
end

