-- ==== Sys2Proof/Safety.lean ====
section
/-! DEFINITION. What counts as a good state: the invariant of 10_state.md R36 and the marks by which a
claim excludes the bad runs (60_exceptions.md R264, 70_reset_and_hazards.md R292, R293, R301). -/

namespace Sys2Proof.Machine

/-- R36, between host operations: the descriptor is well formed (R11), FB is in its canonical form and
within BUFLEN bytes, THR is at least 1, bus select is deasserted, SP is 0, and without a counter CNT is 0. -/
structure State.Inv (s : State) : Prop where
  cfgOk : s.cfg.wellFormed = true
  fbCanonical : s.fb.wf s.fbInit = true
  fbBelow : s.fb.below (bufLength s.cfg) = true
  thrPos : 1 ≤ s.thr
  selectIdle : s.cs = .deasserted
  spIdle : s.sp = 0
  noCounter : s.cfg.counterBased = false → s.cnt = 0

/-- What no operation takes back: the descriptor and the power-on bytes stay, TMO and F_ASLEEP do not go
from 1 to 0, NOW does not decrease, and the trace only grows at its end (R30, R36, R15). -/
structure Later (s t : State) : Prop where
  cfg : t.cfg = s.cfg
  fbInit : t.fbInit = s.fbInit
  tmo : s.tmo = true → t.tmo = true
  fAsleep : s.fAsleep = true → t.fAsleep = true
  now : s.now ≤ t.now
  trace : s.trace <+: t.trace

/-- No timeout was tolerated and no transaction went to a sleeping panel: the premise of any claim about
what the panel shows (R264, R301, R293). -/
def State.unmarked (s : State) : Bool := !s.tmo && !s.fAsleep

/-- SETUP was issued and no SHUTDOWN since: UPDATE, LOADLUT and SHUTDOWN are hazard free (R196, R292). -/
def State.panelReady (s : State) : Bool := decide (s.pst = .ready)

/-- The counter is within its cycle (R22, R299). -/
def State.counterInCycle (s : State) : Bool := decide (s.cnt < s.thr)

/-- FILL or CLEAR was issued since construction, so no byte of FB is unspecified (R291 step 4, R303, R21):
the premise of any claim about what an UPDATE shows. SETPIXELs alone never meet it. -/
def State.framebufferKnown (s : State) : Bool := s.fbFilled

/-! ### Readings of the trace (00_scope.md R15) -/

/-- An event EPDC drives onto its pins; a delay and a sample are none. -/
def Event.driven : Event → Bool
  | .c _ => true
  | .d _ => true
  | .rst _ => true
  | .dly _ => false
  | .poll _ => false

/-- What EPDC drives onto its pins, in order. -/
def drivenEvents (l : List Event) : List Event := l.filter Event.driven

/-- The durations the trace's delays ask for, added up (R305). -/
def delaySum : List Event → Nat
  | [] => 0
  | .c _ :: rest => delaySum rest
  | .d _ :: rest => delaySum rest
  | .rst _ :: rest => delaySum rest
  | .dly ms :: rest => ms + delaySum rest
  | .poll _ :: rest => delaySum rest

/-- The mode line as the trace leaves it, from level `l` (R26). -/
def modeAfter : List Event → Level → Level
  | [], l => l
  | .c _ :: rest, _ => modeAfter rest .low
  | .d _ :: rest, _ => modeAfter rest .high
  | .rst _ :: rest, l => modeAfter rest l
  | .dly _ :: rest, l => modeAfter rest l
  | .poll _ :: rest, l => modeAfter rest l

/-- The reset line as the trace leaves it, from level `l` (R26). -/
def resetAfter : List Event → Level → Level
  | [], l => l
  | .c _ :: rest, l => resetAfter rest l
  | .d _ :: rest, l => resetAfter rest l
  | .rst v :: rest, _ => resetAfter rest v
  | .dly _ :: rest, l => resetAfter rest l
  | .poll _ :: rest, l => resetAfter rest l

/-- The latches hold what the trace last drove, from their levels `dc0` and `rst0` at construction (R26). -/
structure State.Latched (dc0 rst0 : Level) (s : State) : Prop where
  mode : s.dc = modeAfter s.trace dc0
  reset : s.rstl = resetAfter s.trace rst0

/-- Two states alike in all but the waits: the samples, the time, TMO, and the delays and samples of the
trace may differ; what EPDC drove is the same (R201: no outcome of a wait changes the path). -/
structure SamePath (s t : State) : Prop where
  cfg : t.cfg = s.cfg
  fb : t.fb = s.fb
  fbInit : t.fbInit = s.fbInit
  cnt : t.cnt = s.cnt
  thr : t.thr = s.thr
  pst : t.pst = s.pst
  fAsleep : t.fAsleep = s.fAsleep
  cs : t.cs = s.cs
  dc : t.dc = s.dc
  rstl : t.rstl = s.rstl
  sp : t.sp = s.sp
  hostIn : t.hostIn = s.hostIn
  result : t.result = s.result
  driven : drivenEvents t.trace = drivenEvents s.trace
  fbFilled : t.fbFilled = s.fbFilled

/-! ### Readings of a run -/

/-- Perform steps first to last, each completing before the next: the abstract-list reading of a
sequence (42_protocol.md R180). -/
def performSteps : List SeqStep → State → Host.Outcome State Fault Refusal
  | [], s => .next s
  | q :: rest, s => andThen (exec q.instr s) (performSteps rest)

/-- `k` UPDATEs, one after another (R198). -/
def runUpdates : Nat → State → Host.Outcome State Fault Refusal
  | 0, s => .next s
  | k + 1, s => andThen (runUpdates k s) (exec .update)

/-- A step of a sequence an encoding can carry, other than END (R94, R98). -/
def plainStep : SeqStep → Bool
  | .stop => false
  | .write _ p => decide (p.length ≤ 255)
  | .wait => true
  | .lut => true
  | .reserved t => decide (4 ≤ t.toNat)

/-- A caller's field values cut to their widths (43_lut.md R232). -/
def truncated (l : LutDescriptor) : LutDescriptor where
  vs := l.vs.map (· % 4)
  t := l.t.map (· % 256)
  fr := l.fr.map (· % 16)
  ns := l.ns.map (· % 2)
  sc := l.sc.map (· % 256)

end Sys2Proof.Machine
end

