-- ==== Sys2Proof/Certificates/Slice0/Obligations.lean ====
section
/-! DEFINITION. The statements for the provers, from the numbered rules of spec/. -/

open Sys2Proof Sys2Proof.Machine

/-! ### Encoding (30_encoding.md) -/

/-- Words written out from the encodings of R91, R93 and R94, one or more per format, decode to the
operations they stand for (95_test_vectors.md 2.9). The operand values are the vectors'. -/
def Obligations.DecodesWordsOfTheSpec : Prop :=
  decodeHost 8 [0x01#8] = .ok (.setup, []) ∧
  decodeHost 8 [0x04#8, 0x00#8, 0x00#8, 0x00#8, 0x03#8] = .ok (.setFullEvery 3#32, []) ∧
  decodeHost 8 [0x05#8, 0x00#8, 0x7F#8, 0x01#8, 0x27#8, 0x02#8] = .ok (.setPixel 127#16 295#16 2, []) ∧
  decodeHost 8 [0x06#8, 0x01#8, 0x07#8] = .ok (.fill 1, [0x07#8]) ∧
  decodeHost 8 [0x0D#8] = .ok (.hostReserved 0x0D#8, []) ∧
  decodeStep [0x01#8, 0xA1#8, 0x02#8, 0x11#8, 0x22#8, 0x02#8] = .ok (.write 0xA1#8 [0x11#8, 0x22#8], [0x02#8]) ∧
  decodeStep [0x03#8] = .ok (.lut, []) ∧
  decodeBus 0b000100100#9 = .sendCmd 0x24#8 ∧
  decodeBus 0b100100100#9 = .sendData 0x24#8

/-- Every operation that has a word of its own decodes back from it, whatever its operands: HOST and STEP
operations with operands their encoding can carry, and the two bus frames; and a host command does so with
any bytes after it, which are left over. ALWAYSFULL has SETFULLEVERY's word (R103) and a panel command
SENDCMD's (R95), the micro-operations have none (R90). -/
def Obligations.EncodedOperationDecodesBack : Prop :=
  (∀ (c : Config) (i : Instr), i.wellFormed c = true →
    (i.format = .host ∧ i ≠ .alwaysFull) ∨ i.format = .step ∨ (∃ b, i = .sendCmd b ∨ i = .sendData b) →
    decode c (encode c i) = .ok i) ∧
  (∀ (c : Config) (i : Instr) (rest : List Byte), i.wellFormed c = true → i.format = .host → i ≠ .alwaysFull →
    ∃ w, encodeHost c.colorBits i = some w ∧ decodeHost c.colorBits (w ++ rest) = .ok (i, rest))

/-- The other direction, for colours of whole bytes: whatever the host decoder answers is well formed, and
the bytes it took are that operation's word (R92, R93, R99). -/
def Obligations.HostCommandHasOneWord : Prop :=
  ∀ (c : Config) (bs rest : List Byte) (i : Instr), c.colorBits % 8 = 0 →
    decodeHost c.colorBits bs = .ok (i, rest) →
    i.wellFormed c = true ∧ ∃ w, encodeHost c.colorBits i = some w ∧ bs = w ++ rest

/-- A sequence step and its encoding determine each other: the decoder reads the encoding back with any
bytes after it, and takes from any bytes exactly the encoding of what it answers (R94, R101). -/
def Obligations.SequenceStepsAndBytesAgree : Prop :=
  (∀ (q : SeqStep) (rest : List Byte), q = .stop ∨ plainStep q = true →
    decodeStep (encodeStep q ++ rest) = .ok (q, rest)) ∧
  (∀ (bs rest : List Byte) (q : SeqStep), decodeStep bs = .ok (q, rest) →
    bs = encodeStep q ++ rest ∧ (q = .stop ∨ plainStep q = true))

/-- A bus frame is `dc ++ b`: bit 8 is the mode, bits 7:0 the byte, and all 512 are legal (R91, R100). On
the wires a panel that samples the data wire on the rising edges of a clock that idles low receives the
byte, most significant bit first, whatever the data wire held before (R91, R271; the clock's levels are the
spec's own choice D2). -/
def Obligations.BusFramesAreModeAndByte : Prop :=
  (∀ b : Byte, decodeBus (busFrame .low b) = .sendCmd b ∧ decodeBus (busFrame .high b) = .sendData b) ∧
  (∀ f : BitVec 9, f = busFrame (if f.getLsbD 8 then .high else .low) (f.setWidth 8)) ∧
  (∀ (l : Level) (b : Byte) (wire : Bool), sampledBits .low wire (traceLineSteps [busEvent l b]) =
    [b.getLsbD 7, b.getLsbD 6, b.getLsbD 5, b.getLsbD 4, b.getLsbD 3, b.getLsbD 2, b.getLsbD 1, b.getLsbD 0])

/-- ALWAYSFULL is SETFULLEVERY 1 (R103): the same word, and one and the same next state. -/
def Obligations.AlwaysFullIsSetFullEveryOne : Prop :=
  ∀ (c : Config) (s : State),
    encode c .alwaysFull = encode c (.setFullEvery 1#32) ∧
    ∃ t : State, exec .alwaysFull s = .next t ∧ exec (.setFullEvery 1#32) s = .next t

/-- A reserved host opcode is one command of one byte, and a no-op: no state changes, no event is emitted,
no result is returned (R99; the spec's own choice D10). -/
def Obligations.ReservedOpcodeDoesNothing : Prop :=
  ∀ (op : Byte) (rest : List Byte) (n : Nat) (s : State), op.toNat = 0 ∨ 13 ≤ op.toNat →
    decodeHost n (op :: rest) = .ok (.hostReserved op, rest) ∧ exec (.hostReserved op) s = .next s

/-! ### Construction, step and the whole machine -/

/-- The state after construction (R35): the values the spec gives. The spec calls DC, RSTL and FB
unspecified; what the model holds there is a free value (log 3, log 4) and is not stated. -/
def Obligations.ConstructionGivesTheResetValues : Prop :=
  ∀ c : Config, c.wellFormed = true →
    ∃ s, State.construct c = some s ∧ s.cfg = c ∧ s.cnt = 0 ∧ s.thr = c.thrInit ∧ s.pst = .off ∧
      s.tmo = false ∧ s.fAsleep = false ∧ s.sp = 0 ∧ s.now = 0 ∧ s.cs = .deasserted ∧ s.trace = []

/-- Construction refuses every descriptor that breaks a condition of R11 (a) to (e) or has an ill-formed
sequence ROM (R98). -/
def Obligations.ConstructionRefusesIllFormedDescriptors : Prop :=
  ∀ c : Config,
    c.width = 0 ∨ c.height = 0 ∨ 32767 < c.width ∨ 32767 < c.height ∨ c.thrInit = 0 ∨
    (∃ q, romWellFormed (seqRom c q).length (seqRom c q) = false) ∨
    (∃ q, romHasLut (seqRom c q).length (seqRom c q) = true ∧ (c.cmdLut = none ∨ c.lutCfg = none)) ∨
    255 < c.refresh.payload.length ∨ (∃ w, c.powerOff = some w ∧ 255 < w.payload.length) ∨
    255 < c.sleep.payload.length ∨ c.pollMs = 0 →
    State.construct c = none

/-- A step performs the command the host port decodes to: the bytes are taken and the last result is
gone, then it is `exec` (log 7, log 9: the model's choices). -/
def Obligations.StepPerformsTheDecodedCommand : Prop :=
  ∀ (s : State) (i : Instr) (rest : List Byte), s.cfg.wellFormed = true →
    decodeHost s.cfg.colorBits s.hostIn = .ok (i, rest) →
    step s = exec i { s with hostIn := rest, result := none }

/-- With no command, or not yet a complete one, EPDC is idle and holds its state (R274; on an incomplete
command the model's choice, log 8). With an ill-formed descriptor there is no EPDC to step (log 16). -/
def Obligations.StepIsIdleWithoutACommand : Prop :=
  (∀ (s : State) (e : DecodeError), s.cfg.wellFormed = true →
    decodeHost s.cfg.colorBits s.hostIn = .error e → step s = .next s) ∧
  (∀ s : State, s.cfg.wellFormed = false → step s = .refused .illFormedDescriptor)

/-- EPDC never stops: on a well-formed descriptor, in every state, whatever the host presents, a step
answers a next state (R260). -/
def Obligations.StepNeverStops : Prop :=
  ∀ s : State, s.cfg.wellFormed = true → ∃ t, step s = .next t

/-- Construction meets the invariant of R36. -/
def Obligations.ConstructionMeetsTheInvariant : Prop :=
  (∀ c : Config, c.wellFormed = true → (State.afterConstruction c).Inv) ∧ State.reset.Inv

/-- Every step keeps the invariant of R36: FB canonical and within BUFLEN bytes, THR at least 1, select
deasserted, SP 0, CNT 0 without a counter. It keeps CNT < THR too, unless its command is a SETFULLEVERY
with an operand from 1 to CNT (R36, R22; ALWAYSFULL reaches the port as SETFULLEVERY 1). -/
def Obligations.StepKeepsTheInvariant : Prop :=
  ∀ s t : State, s.Inv → step s = .next t →
    t.Inv ∧
    ((∀ (n : BitVec 32) (rest : List Byte),
        decodeHost s.cfg.colorBits s.hostIn = .ok (.setFullEvery n, rest) → ¬ (1 ≤ n.toNat ∧ n.toNat ≤ s.cnt)) →
      s.cnt < s.thr → t.cnt < t.thr)

/-- From any state, a step takes back neither TMO, F_ASLEEP, time nor the trace, and writes neither the
descriptor nor the power-on bytes (R36, R25, R24, R30, R15). -/
def Obligations.StepTakesNothingBack : Prop :=
  ∀ s t : State, step s = .next t → Later s t

/-- DC holds the level of the last transaction and RSTL the level last driven, at every step, from whatever
levels they had at construction (R26). That construction leaves the free constants `Config.powerOnDc` and
`Config.powerOnRstl` there is the model's choice, log 4: R26 and R35 leave both lines unspecified. -/
def Obligations.LatchesFollowTheTrace : Prop :=
  (∀ c : Config, (State.afterConstruction c).Latched Config.powerOnDc Config.powerOnRstl) ∧
  (∀ (dc0 rst0 : Level) (s t : State), s.Latched dc0 rst0 → step s = .next t → t.Latched dc0 rst0)

/-- In the reference reading of time a step lasts exactly the sum of its DLY events (R305, R14). -/
def Obligations.StepLastsTheSumOfItsDelays : Prop :=
  ∀ s t : State, s.slack = [] → step s = .next t →
    t.slack = [] ∧ t.now + delaySum s.trace = s.now + delaySum t.trace

/-- No outcome of a wait changes the path (R201, R197): from two states that differ only in the busy
samples, the time, TMO and the waits already in the trace, a step drives the same events and leaves the
same registers, framebuffer and result. -/
def Obligations.WaitsDoNotChangeThePath : Prop :=
  ∀ s s' t : State, SamePath s s' → step s = .next t → ∃ t', step s' = .next t' ∧ SamePath t t'

/-- Only SETPIXEL, FILL and CLEAR write FB: any other operation leaves every byte as it was (R20, R60). -/
def Obligations.OnlyFramebufferOperationsWriteFb : Prop :=
  ∀ (i : Instr) (s t : State), exec i s = .next t →
    (∀ x y color, i ≠ .setPixel x y color) → (∀ color, i ≠ .fill color) → i ≠ .clear →
    t.fb = s.fb ∧ ∀ a, fbRead t a = fbRead s a

/-- Each of CNT, THR and PST has its writers and no other: CNT is UPDATE's, THR is SETFULLEVERY's (and its
pseudo-operation's), PST becomes READY by the Initialize phase and so by SETUP, ASLEEP by the Deep Sleep
phase and so by SHUTDOWN, AWAKE by the Reset phase (R22, R23, R24, R196). FILL and CLEAR alone write the
model's own mark that FB was filled (log 28). -/
def Obligations.RegistersHaveTheirWriters : Prop :=
  ∀ (i : Instr) (s t : State), exec i s = .next t →
    (i ≠ .update → t.cnt = s.cnt) ∧
    ((∀ n, i ≠ .setFullEvery n) → i ≠ .alwaysFull → t.thr = s.thr) ∧
    (i = .setup ∨ i = .initPhase → t.pst = .ready) ∧
    (i = .shutdown ∨ i = .deepSleepPhase → t.pst = .asleep) ∧
    (i = .resetPhase → t.pst = .awake) ∧
    (i ≠ .setup → i ≠ .initPhase → i ≠ .shutdown → i ≠ .deepSleepPhase → i ≠ .resetPhase → t.pst = s.pst) ∧
    ((∀ color, i ≠ .fill color) → i ≠ .clear → t.fbFilled = s.fbFilled)

/-- F_ASLEEP is set only by a transaction while PST = ASLEEP: from any other PST no operation, the one
that puts the panel to sleep included, changes it (R126, R191). -/
def Obligations.AwakePanelIsNeverMarkedAsleep : Prop :=
  ∀ (i : Instr) (s t : State), s.pst ≠ .asleep → exec i s = .next t → t.fAsleep = s.fAsleep

/-- To a sleeping panel UPDATE, SHUTDOWN and LOADLUT are performed all the same and marked in F_ASLEEP;
SETUP wakes it and marks nothing (R126, R293, R194, D39). -/
def Obligations.TrafficToASleepingPanelIsMarked : Prop :=
  ∀ (s : State) (image : List Byte), s.cfg.wellFormed = true → s.pst = .asleep →
    (∃ t : State, exec .update s = .next t ∧ t.fAsleep = true) ∧
    (∃ t : State, exec .shutdown s = .next t ∧ t.fAsleep = true) ∧
    (s.cfg.cmdLut ≠ none → ∃ t : State, exec (.loadLut image) s = .next t ∧ t.fAsleep = true) ∧
    (∃ t : State, exec .setup s = .next t ∧ t.fAsleep = s.fAsleep ∧ t.pst = .ready)

/-! ### The bus, time and the pins (40_bus_and_sync.md) -/

/-- SENDCMD and SENDDATA complete in every state and do this alone: the ghost mark when PST = ASLEEP,
select deasserted at the end, the mode line low for a command and high for data, one event; on the wires
that event is select asserted, the mode, the byte most significant bit first with one clock pulse per bit,
select deasserted (R120, R121; the levels `selectLevel`, `clockSampling` and `clockIdle` name are the spec's
own choice D2). -/
def Obligations.OneTransactionPerByte : Prop :=
  ∀ (b : Byte) (s : State),
    exec (.sendCmd b) s = .next { s with
      fAsleep := s.fAsleep || decide (s.pst = .asleep), cs := .deasserted, dc := .low, trace := s.trace ++ [.c b] } ∧
    exec (.sendData b) s = .next { s with
      fAsleep := s.fAsleep || decide (s.pst = .asleep), cs := .deasserted, dc := .high, trace := s.trace ++ [.d b] } ∧
    ∀ l : Level, traceLineSteps [busEvent l b] =
      [.select (selectLevel .asserted), .mode l,
        .data (b.getLsbD 7), .clock clockSampling, .clock clockIdle,
        .data (b.getLsbD 6), .clock clockSampling, .clock clockIdle,
        .data (b.getLsbD 5), .clock clockSampling, .clock clockIdle,
        .data (b.getLsbD 4), .clock clockSampling, .clock clockIdle,
        .data (b.getLsbD 3), .clock clockSampling, .clock clockIdle,
        .data (b.getLsbD 2), .clock clockSampling, .clock clockIdle,
        .data (b.getLsbD 1), .clock clockSampling, .clock clockIdle,
        .data (b.getLsbD 0), .clock clockSampling, .clock clockIdle,
        .select (selectLevel .deasserted)]

/-- SENDWRITE is the command, then one data transaction per byte in order, and nothing else (R122). -/
def Obligations.RegisterWriteIsCommandThenData : Prop :=
  ∀ (c : Byte) (l : List Byte) (s : State),
    exec (.sendWrite c l) s = .next { s with
      fAsleep := s.fAsleep || decide (s.pst = .asleep)
      cs := .deasserted
      dc := if l = [] then .low else .high
      trace := s.trace ++ .c c :: l.map .d }

/-- DELAY emits DLY(d) and advances NOW by d and by what this delay overshoots: exactly d in the reference
reading, at least d in the general reading (R123, R14, D3; the overshoots are the model's input, log 6). -/
def Obligations.DelayAdvancesTime : Prop :=
  ∀ (d : Nat) (s : State),
    exec (.delay d) s = .next { s with
      now := s.now + d + s.slack.headD 0, slack := s.slack.tail, trace := s.trace ++ [.dly d] } ∧
    (s.slack = [] → exec (.delay d) s = .next { s with now := s.now + d, trace := s.trace ++ [.dly d] })

/-- DRIVERST drives the reset line, and emits its event also when the line already has that level (R125). -/
def Obligations.ResetLineIsDriven : Prop :=
  ∀ (l : Level) (s : State),
    exec (.driveRst l) s = .next { s with rstl := l, trace := s.trace ++ [.rst l] } ∧
    (s.rstl = l → exec (.driveRst l) s = .next { s with trace := s.trace ++ [.rst l] })

/-- SAMPLEBUSY returns the pin's level and emits it, whatever it is; EPDC keeps no copy (R123, R27). Where
the environment has listed its next level that is the level read (log 5: the model's input). With no busy
pin the sample is undefined and refused (log 14: the model's choice). -/
def Obligations.BusySampleIsOneRead : Prop :=
  ∀ s : State,
    (s.cfg.hasBusyPin = true → ∃ (v : Level) (t : State), exec .sampleBusy s = .next t ∧
      t = { s with
        busyIn := s.busyIn.tail, busyTaken := t.busyTaken
        result := some (.level v), trace := s.trace ++ [.poll v] } ∧
      ∀ (listed : Level) (later : List Level), s.busyIn = listed :: later →
        v = listed ∧ t.busyIn = later ∧ t.busyTaken = s.busyTaken) ∧
    (s.cfg.hasBusyPin = false → exec .sampleBusy s = .refused .noBusyPin)

/-- R127 (a), in the reference reading: with a pin that is busy before `s.now + t` and idle from then on,
t at most the timeout, WAITIDLE returns OK after `POLL_MS * ceil(t / POLL_MS)`, having sampled once more
than it delayed; TMO and all else stay. -/
def Obligations.WaitEndsWhenThePanelGoesIdle : Prop :=
  ∀ (s : State) (timeout t : Nat) (pin : Nat → Level),
    s.cfg.hasBusyPin = true → 1 ≤ s.cfg.pollMs → s.slack = [] → t ≤ timeout →
    (∀ u, u < t → pin (s.now + u) = s.cfg.busyActive) →
    (∀ u, t ≤ u → pin (s.now + u) ≠ s.cfg.busyActive) →
    (∀ k, k ≤ timeout → s.busyIn[k]? = some (pin (s.now + s.cfg.pollMs * k))) →
    ∃ n, n = (t + s.cfg.pollMs - 1) / s.cfg.pollMs ∧
      exec (.waitIdle timeout) s = .next { s with
        result := some (.wait .ok)
        now := s.now + s.cfg.pollMs * n
        busyIn := s.busyIn.drop (n + 1)
        trace := s.trace ++ (List.replicate n [.poll s.cfg.busyActive, .dly s.cfg.pollMs]).flatten ++
          [.poll (pin (s.now + s.cfg.pollMs * n))] }

/-- R127 (b) and (c), in the reference reading: with a pin that stays busy WAITIDLE returns FAIL and sets
TMO after `POLL_MS * ceil(T / POLL_MS)`, never before T, having sampled once more than it delayed. -/
def Obligations.WaitTimesOutOnABusyPanel : Prop :=
  ∀ (s : State) (timeout : Nat),
    s.cfg.hasBusyPin = true → 1 ≤ s.cfg.pollMs → s.slack = [] →
    (∀ k, k ≤ timeout → s.busyIn[k]? = some s.cfg.busyActive) →
    ∃ n, n = (timeout + s.cfg.pollMs - 1) / s.cfg.pollMs ∧ timeout ≤ s.cfg.pollMs * n ∧
      exec (.waitIdle timeout) s = .next { s with
        result := some (.wait .fail)
        tmo := true
        now := s.now + s.cfg.pollMs * n
        busyIn := s.busyIn.drop (n + 1)
        trace := s.trace ++ (List.replicate n [.poll s.cfg.busyActive, .dly s.cfg.pollMs]).flatten ++
          [.poll s.cfg.busyActive] }

/-- WAITIDLE with a pin completes whatever the samples and however long the delays really last: FAIL only
after the timeout and with TMO set, OK with TMO as it was, at most `T + POLL_MS - 1` ms in the reference
reading (R124, R127 d), and nothing else changes. -/
def Obligations.WaitIsBoundedAndNeverEarly : Prop :=
  ∀ (s : State) (timeout : Nat), s.cfg.hasBusyPin = true → 1 ≤ s.cfg.pollMs →
    ∃ (t : State) (r : WaitResult), exec (.waitIdle timeout) s = .next t ∧ t.result = some (.wait r) ∧
      (r = .fail → t.tmo = true ∧ s.now + timeout ≤ t.now) ∧
      (r = .ok → t.tmo = s.tmo) ∧
      (s.slack = [] → t.now ≤ s.now + (timeout + s.cfg.pollMs - 1)) ∧
      (∃ w : List Event, t.trace = s.trace ++ w ∧ ∀ e : Event, e ∈ w → e = .dly s.cfg.pollMs ∨ ∃ v, e = .poll v) ∧
      t = { s with
        result := t.result, tmo := t.tmo, now := t.now, trace := t.trace
        busyIn := t.busyIn, busyTaken := t.busyTaken, slack := t.slack }

/-- With no busy pin WAITIDLE is one fixed delay and always returns OK; TMO is not set (R124, R127 e). -/
def Obligations.WaitWithoutAPinIsOneDelay : Prop :=
  ∀ (s : State) (timeout : Nat), s.cfg.hasBusyPin = false →
    exec (.waitIdle timeout) s = .next { s with
      result := some (.wait .ok)
      now := s.now + s.cfg.nobusyDelayMs + s.slack.headD 0
      slack := s.slack.tail
      trace := s.trace ++ [.dly s.cfg.nobusyDelayMs] }

/-! ### Panel commands and transfers (30_encoding.md R95, 42_protocol.md R187) -/

/-- XFERPLANE of a plane the panel has: the RAM-write command, then the PLANE bytes of that plane as
stored, in increasing address, and nothing else (R187). -/
def Obligations.PlaneIsSentAsStored : Prop :=
  ∀ (p : Plane) (s : State), p = .bw ∨ s.cfg.hasAccent = true →
    exec (.xferPlane p) s = .next { s with
      fAsleep := s.fAsleep || decide (s.pst = .asleep)
      cs := .deasserted
      dc := if planeSize s.cfg = 0 then .low else .high
      trace := s.trace ++ .c (if p = .bw then s.cfg.cmdRamBw else s.cfg.cmdRamAc) ::
        (List.range (planeSize s.cfg)).map (fun k => Event.d (fbRead s (planeIndex p * planeSize s.cfg + k))) }

/-- The accent plane of a one-plane panel has no addresses: XFERPLANE and PANEL_RAM_AC stop there by name
(R21, R61; the model's choice, log 13). -/
def Obligations.AbsentPlaneFaults : Prop :=
  ∀ s : State, s.cfg.hasAccent = false →
    exec (.xferPlane .ac) s = .fault .framebufferAddressAbsent ∧
    exec .panelRamAc s = .fault .framebufferAddressAbsent

/-- PANEL_RAM_BW and PANEL_RAM_AC are the two XFERPLANE transfers; PANEL_REFRESH, PANEL_SLEEP and
PANEL_LUT_WRITE send their descriptor field and its bytes; each panel command's frame is the command
frame of its field, where the descriptor has that field (R95; that a row includes what follows its command,
and sends nothing where its field is absent, is the model's reading, log 12). -/
def Obligations.PanelCommandsSendTheirField : Prop :=
  ∀ (s : State) (image : List Byte),
    exec .panelRamBw s = exec (.xferPlane .bw) s ∧
    (∃ t : State, exec .panelRamBw s = .next t) ∧
    exec .panelRamAc s = exec (.xferPlane .ac) s ∧
    (s.cfg.hasAccent = true → ∃ t : State, exec .panelRamAc s = .next t) ∧
    exec .panelRefresh s = .next { s with
      fAsleep := s.fAsleep || decide (s.pst = .asleep)
      cs := .deasserted
      dc := if s.cfg.refresh.payload = [] then .low else .high
      trace := s.trace ++ .c s.cfg.refresh.cmd :: s.cfg.refresh.payload.map .d } ∧
    exec .panelSleep s = .next { s with
      fAsleep := s.fAsleep || decide (s.pst = .asleep)
      cs := .deasserted
      dc := if s.cfg.sleep.payload = [] then .low else .high
      trace := s.trace ++ .c s.cfg.sleep.cmd :: s.cfg.sleep.payload.map .d } ∧
    exec (.panelLutWrite image) s = exec (.loadLut image) s ∧
    (∃ t : State, exec (.panelLutWrite image) s = .next t) ∧
    encode s.cfg .panelRamBw = encode s.cfg (.sendCmd s.cfg.cmdRamBw) ∧
    encode s.cfg .panelRamAc = encode s.cfg (.sendCmd s.cfg.cmdRamAc) ∧
    encode s.cfg .panelRefresh = encode s.cfg (.sendCmd s.cfg.refresh.cmd) ∧
    encode s.cfg .panelSleep = encode s.cfg (.sendCmd s.cfg.sleep.cmd) ∧
    (∀ w, s.cfg.powerOff = some w → encode s.cfg .panelPowerOff = encode s.cfg (.sendCmd w.cmd)) ∧
    (∀ b, s.cfg.cmdLut = some b → encode s.cfg (.panelLutWrite image) = encode s.cfg (.sendCmd b))

/-- PANEL_POWER_OFF: nothing where the descriptor has no POWER_OFF; else its command and payload, then one
wait whose result is discarded. R95 has only the payload follow the command, and R191 and D28 give the wait
and the absent case to the Deep Sleep phase: that the row includes them is the model's reading, log 12. -/
def Obligations.PowerOffIsWrittenThenWaitedFor : Prop :=
  ∀ s : State,
    (s.cfg.powerOff = none → exec .panelPowerOff s = .next s) ∧
    (∀ w, s.cfg.powerOff = some w →
      ∃ t u : State, exec (.sendWrite w.cmd w.payload) s = .next t ∧ exec (.waitIdle s.cfg.idleTimeoutMs) t = .next u ∧
        exec .panelPowerOff s = .next { u with result := s.result })

/-! ### Sequences (42_protocol.md R180 to R184) -/

/-- Step W sends its command and payload, waits for nothing, and writes nothing else but SP (R181). -/
def Obligations.WriteStepSendsItsBytes : Prop :=
  ∀ (c : Byte) (l : List Byte) (s : State),
    ∃ t : State, exec (.seqWrite c l) s = .next t ∧
      t = { s with
        fAsleep := s.fAsleep || decide (s.pst = .asleep)
        cs := .deasserted
        dc := if l = [] then .low else .high
        sp := t.sp
        trace := s.trace ++ .c c :: l.map .d }

/-- Step WAIT is WAITIDLE with the model's idle timeout, its result discarded, and moves SP by 1; step END
sets SP to 0 and emits nothing; step W moves SP past its `3 + n` bytes (R182, R184, R180; the ROM layout is
the spec's own choice D8). -/
def Obligations.WaitAndEndSteps : Prop :=
  ∀ s : State,
    (∃ t : State, exec (.waitIdle s.cfg.idleTimeoutMs) s = .next t ∧
      exec .seqWait s = .next { t with result := s.result, sp := s.sp + 1 }) ∧
    exec .seqEnd s = .next { s with sp := 0 } ∧
    ∀ (c : Byte) (l : List Byte), ∃ t : State, exec (.seqWrite c l) s = .next t ∧ t.sp = s.sp + (3 + l.length)

/-- Step LUT loads the table given at construction and moves SP by 1; on a model with no LUT register it
only moves SP; with no table, which R11 rules out, it is refused (R183, R235, D36; the refusal is the
model's, log 15). -/
def Obligations.LutStepLoadsTheConstructionTable : Prop :=
  ∀ (s : State) (l : LutDescriptor),
    (s.cfg.lutCfg = some l →
      ∃ t : State, exec (.loadLut (packImage l)) s = .next t ∧ exec .seqLut s = .next { t with sp := s.sp + 1 }) ∧
    (s.cfg.lutCfg = some l → s.cfg.cmdLut = none → exec .seqLut s = .next { s with sp := s.sp + 1 }) ∧
    (s.cfg.lutCfg = none → exec .seqLut s = .refused .lutStepWithoutTable)

/-- A reserved tag is refused, as a step of its own and where a running sequence meets it first. R98 and D41
refuse its ROM at construction and say that no rule says what a reserved tag does: that STEP_RESERVED and
RUNSEQ refuse it when they run is the model's choice, log 15. -/
def Obligations.ReservedTagIsRefused : Prop :=
  ∀ (tag : Byte) (q : SeqId) (rest : List Byte) (s : State), 4 ≤ tag.toNat →
    exec (.stepReserved tag) s = .refused (.reservedStepTag tag) ∧
    (seqRom s.cfg q = tag :: rest → exec (.runSeq q) s = .refused (.reservedStepTag tag))

/-- RUNSEQ over the ROM image is the abstract list performed first to last, then END: the two readings of
R28 and R180 agree, for every list of steps and whatever bytes follow its END (R94, R98). -/
def Obligations.RomAndListReadingsAgree : Prop :=
  ∀ (q : SeqId) (steps : List SeqStep) (after : List Byte) (s : State),
    (∀ x ∈ steps, plainStep x = true) → seqRom s.cfg q = encodeSeq steps ++ after →
    exec (.runSeq q) s = performSteps (steps ++ [.stop]) { s with sp := 0 }

/-- RUNSEQ completes on a well-formed descriptor, in every state, with SP 0; it writes neither FB, CNT, THR,
PST, RSTL nor the result, and leaves select deasserted (R180, R184, R98). -/
def Obligations.SequenceRunsToItsEnd : Prop :=
  ∀ (q : SeqId) (s : State), s.cfg.wellFormed = true →
    ∃ t : State, exec (.runSeq q) s = .next t ∧
      (s.cs = .deasserted → t.cs = .deasserted) ∧ (s.pst ≠ .asleep → t.fAsleep = s.fAsleep) ∧
      t = { s with
        sp := 0, tmo := t.tmo, fAsleep := t.fAsleep, cs := t.cs, dc := t.dc, now := t.now, trace := t.trace
        busyIn := t.busyIn, busyTaken := t.busyTaken, slack := t.slack }

/-! ### Phases and host operations (42_protocol.md R185 to R195) -/

/-- The Reset phase: initial level, T1, toggled level, T2 or the override, initial level; then PST is AWAKE.
It sends nothing on the bus (R185; the level and the override are the spec's own choice D20). -/
def Obligations.ResetPhasePulsesTheLine : Prop :=
  ∀ s : State,
    exec .resetPhase s = .next { s with
      rstl := s.cfg.rstL0
      pst := .awake
      now := s.now + s.cfg.rstT1Ms + s.slack.headD 0 +
        (match s.cfg.rstOverrideMs with | some m => m | none => s.cfg.rstT2Ms) + s.slack.tail.headD 0
      slack := s.slack.drop 2
      trace := s.trace ++ [.rst s.cfg.rstL0, .dly s.cfg.rstT1Ms, .rst s.cfg.rstL0.not,
        .dly (match s.cfg.rstOverrideMs with | some m => m | none => s.cfg.rstT2Ms), .rst s.cfg.rstL0] }

/-- The Initialize phase is RunSeq(INIT), then PST <- READY, and it completes (R186). -/
def Obligations.InitializePhaseRunsInit : Prop :=
  ∀ s : State, s.cfg.wellFormed = true →
    ∃ t : State, exec (.runSeq .init) s = .next t ∧ exec .initPhase s = .next { t with pst := .ready }

/-- SETUP is the Reset phase, then the Initialize phase, in any PST; it ends READY and writes neither FB,
CNT, THR nor F_ASLEEP (R192, D29). -/
def Obligations.SetupResetsThenInitializes : Prop :=
  ∀ s : State, s.cfg.wellFormed = true →
    ∃ t u : State, exec .resetPhase s = .next t ∧ exec .initPhase t = .next u ∧ exec .setup s = .next u ∧
      t.trace <+: u.trace ∧ (s.cs = .deasserted → u.cs = .deasserted) ∧
      u = { s with
        pst := .ready, rstl := s.cfg.rstL0, sp := 0, tmo := u.tmo, cs := u.cs, dc := u.dc, now := u.now
        trace := u.trace, busyIn := u.busyIn, busyTaken := u.busyTaken, slack := u.slack }

/-- The partial path of Transfer & Refresh sends plane 0 only, then the refresh command, and ends with WAITIDLE
of the idle timeout, whose result is discarded; it completes in every state (R188, D23, D27). -/
def Obligations.PartialTransferSendsPlaneZero : Prop :=
  ∀ s : State,
    ∃ t u : State,
      t = { s with
        fAsleep := s.fAsleep || decide (s.pst = .asleep)
        cs := .deasserted
        dc := if s.cfg.refresh.payload = [] then .low else .high
        trace := s.trace ++
          .c s.cfg.cmdRamBw :: (List.range (planeSize s.cfg)).map (fun k => Event.d (fbRead s k)) ++
          .c s.cfg.refresh.cmd :: s.cfg.refresh.payload.map .d } ∧
      exec (.waitIdle s.cfg.idleTimeoutMs) t = .next u ∧
      exec (.transferRefresh false) s = .next { u with result := s.result }

/-- The full path runs FULL_PRE, then sends plane 0 and, on a two-plane panel, plane 1, then the refresh
command, and ends with WAITIDLE of the idle timeout, whose result is discarded; on a well-formed descriptor
it completes in every state (R188, D22, D27). -/
def Obligations.FullTransferReinitializesAndSendsEveryPlane : Prop :=
  ∀ s : State, s.cfg.wellFormed = true →
    ∃ u t v : State, exec (.runSeq .fullPre) s = .next u ∧
      t = { s with
        fAsleep := s.fAsleep || decide (s.pst = .asleep)
        cs := .deasserted
        dc := if s.cfg.refresh.payload = [] then .low else .high
        sp := 0, tmo := u.tmo, now := u.now, busyIn := u.busyIn, busyTaken := u.busyTaken, slack := u.slack
        trace := u.trace ++
          .c s.cfg.cmdRamBw :: (List.range (planeSize s.cfg)).map (fun k => Event.d (fbRead s k)) ++
          (if s.cfg.hasAccent then
            .c s.cfg.cmdRamAc :: (List.range (planeSize s.cfg)).map (fun k => Event.d (fbRead s (planeSize s.cfg + k)))
          else []) ++
          .c s.cfg.refresh.cmd :: s.cfg.refresh.payload.map .d } ∧
      exec (.waitIdle s.cfg.idleTimeoutMs) t = .next v ∧
      exec (.transferRefresh true) s = .next { v with result := s.result }

/-- UPDATE chooses by the counter it finds (full without a counter or at CNT = 0), performs that transfer
and then counts, whatever the waits did (R189, R190, R193, D24, D26). -/
def Obligations.UpdateTransfersThenCounts : Prop :=
  ∀ s : State, s.cfg.wellFormed = true →
    ∃ t : State, exec (.transferRefresh (!s.cfg.counterBased || s.cnt == 0)) s = .next t ∧
      exec .update s = .next { t with cnt := if s.cfg.counterBased then (s.cnt + 1) % s.thr else s.cnt }

/-- The counter after k UPDATEs is k mod N, and the next UPDATE is full exactly when that is 0 (R198; the
spec's own formula D26, conflict C3). -/
def Obligations.CounterIsUpdatesModThreshold : Prop :=
  ∀ (k : Nat) (s : State), s.cfg.wellFormed = true → s.cfg.counterBased = true → 1 ≤ s.thr → s.cnt = 0 →
    ∃ t : State, runUpdates k s = .next t ∧ t.cnt = k % s.thr ∧ t.thr = s.thr ∧ (isFull t = true ↔ k % s.thr = 0)

/-- The Deep Sleep phase, and so SHUTDOWN in any PST, is the optional power-off, then the sleep command,
then PST = ASLEEP (R191, R194, D28, D30). -/
def Obligations.DeepSleepEndsWithTheSleepCommand : Prop :=
  ∀ s : State,
    ∃ t : State, exec .panelPowerOff s = .next t ∧ exec .shutdown s = exec .deepSleepPhase s ∧
      exec .deepSleepPhase s = .next { t with
        fAsleep := s.fAsleep || decide (s.pst = .asleep)
        cs := .deasserted
        dc := if s.cfg.sleep.payload = [] then .low else .high
        pst := .asleep
        trace := t.trace ++ .c s.cfg.sleep.cmd :: s.cfg.sleep.payload.map .d } ∧
      t = { s with
        fAsleep := t.fAsleep, cs := t.cs, dc := t.dc, tmo := t.tmo, now := t.now, trace := t.trace
        busyIn := t.busyIn, busyTaken := t.busyTaken, slack := t.slack }

/-- SETFULLEVERY n sets THR on a counter-based model when n is at least 1, and is a no-op otherwise; CNT
stays (R195; n = 0 is the spec's own choice D25). -/
def Obligations.SetFullEverySetsTheThreshold : Prop :=
  ∀ (n : BitVec 32) (s : State),
    exec (.setFullEvery n) s =
      .next { s with thr := if s.cfg.counterBased = true ∧ n ≠ 0#32 then n.toNat else s.thr }

/-! ### The framebuffer (41_framebuffer.md) -/

/-- SETPIXEL in bounds sets exactly one bit of FB, that of pixel (x, y) in the plane of its class, to the
bit of its class, and changes nothing else (R150, R158, R62, R63; the plane is the spec's reading D12). -/
def Obligations.SetPixelSetsOneBit : Prop :=
  ∀ (x y : BitVec 16) (color : Nat) (s : State),
    0 ≤ x.toInt → x.toInt < s.cfg.width → 0 ≤ y.toInt → y.toInt < s.cfg.height →
    ∃ t : State, exec (.setPixel x y color) s = .next t ∧ t = { s with fb := t.fb } ∧
      ∀ a i, i < 8 → (fbRead t a).getLsbD i =
        if a = (if classOf s.cfg color = .ac ∧ s.cfg.hasAccent = true then planeSize s.cfg else 0) +
              y.toInt.toNat * ((s.cfg.width + 7) / 8) + x.toInt.toNat / 8 ∧
            i = (if s.cfg.bitOrder = .msbFirst then 7 - x.toInt.toNat % 8 else x.toInt.toNat % 8)
        then (if classOf s.cfg color = .ac ∧ s.cfg.hasAccent = true then s.cfg.acBit
          else if classOf s.cfg color = .bg then !s.cfg.fgBit else s.cfg.fgBit)
        else (fbRead s a).getLsbD i

/-- SETPIXEL out of bounds is a no-op, tested on x and y separately before the colour is looked at (R65). -/
def Obligations.SetPixelOutOfRangeIsANoOp : Prop :=
  ∀ (x y : BitVec 16) (color : Nat) (s : State),
    x.toInt < 0 ∨ (s.cfg.width : Int) ≤ x.toInt ∨ y.toInt < 0 ∨ (s.cfg.height : Int) ≤ y.toInt →
    exec (.setPixel x y color) s = .next s

/-- Distinct in-bounds pixels of one plane have distinct places, and every place lies in its plane, below
BUFLEN, and on no padding bit (R159, R61, R64). -/
def Obligations.DistinctPixelsHaveDistinctBits : Prop :=
  ∀ (c : Config) (p : Plane) (x y x' y' : Nat), planePresent c p = true →
    x < c.width → y < c.height → x' < c.width → y' < c.height →
    (pixelAddr c p x y = pixelAddr c p x' y' → bitPos c x = bitPos c x' → x = x' ∧ y = y') ∧
    planeBase c p ≤ pixelAddr c p x y ∧ pixelAddr c p x y < planeBase c p + planeSize c ∧
    pixelAddr c p x y < bufLength c ∧ bitPos c x < 8 ∧
    (∀ z, c.width ≤ z → z < 8 * stride c →
      ¬ (pixelAddr c p x y = planeBase c p + y' * stride c + z / 8 ∧ bitPos c x = bitPos c z))

/-- FILL writes every byte of every plane, padding included: all background or all foreground with no
accent, or, for an accent colour on a two-plane panel, all background with all accent (R151, D13, D16). It
writes nothing else but the model's own mark that FB was filled (log 28). -/
def Obligations.FillWritesEveryByte : Prop :=
  ∀ (color : Nat) (s : State),
    ∃ t : State, exec (.fill color) s = .next t ∧ t = { s with fb := t.fb, fbFilled := true } ∧
      ∀ a, fbRead t a =
        if a < planeSize s.cfg then
          (if classOf s.cfg color = .bg ∨ (classOf s.cfg color = .ac ∧ s.cfg.hasAccent = true)
            then rep8 (!s.cfg.fgBit) else rep8 s.cfg.fgBit)
        else if s.cfg.hasAccent = true ∧ a < 2 * planeSize s.cfg then
          (if classOf s.cfg color = .ac then rep8 s.cfg.acBit else rep8 (!s.cfg.acBit))
        else fbRead s a

/-- CLEAR writes the idle pattern of each plane to every byte of it (R152, D15), and nothing else but the
model's own mark that FB was filled (log 28). -/
def Obligations.ClearWritesTheIdlePatterns : Prop :=
  ∀ s : State,
    ∃ t : State, exec .clear s = .next t ∧ t = { s with fb := t.fb, fbFilled := true } ∧
      ∀ a, fbRead t a =
        if a < planeSize s.cfg then s.cfg.idle0
        else if s.cfg.hasAccent = true ∧ a < 2 * planeSize s.cfg then s.cfg.idle1
        else fbRead s a

/-- The getters return W and H in 16 bits and BUFLEN in 32, all of it on a well-formed descriptor, and
GETTYPE 1 exactly for a two-plane panel; they write nothing else (R153 to R156, R104). -/
def Obligations.GettersReturnTheDescriptor : Prop :=
  ∀ s : State, s.cfg.wellFormed = true →
    (∃ v, exec .getWidth s = .next { s with result := some (.bits16 v) } ∧ v.toNat = s.cfg.width) ∧
    (∃ v, exec .getHeight s = .next { s with result := some (.bits16 v) } ∧ v.toNat = s.cfg.height) ∧
    (∃ v, exec .getType s = .next { s with result := some (.bits1 v) } ∧
      v.toNat = if s.cfg.hasAccent then 1 else 0) ∧
    (∃ v, exec .bufLen s = .next { s with result := some (.bits32 v) } ∧
      v.toNat = (s.cfg.width + 7) / 8 * s.cfg.height * (if s.cfg.hasAccent then 2 else 1))

/-! ### The waveform LUT (43_lut.md) -/

/-- PACKLUT completes and returns a 158-byte image with every field where R231 puts it, cut to its width. -/
def Obligations.PackedFieldsLieWhereTheImageHasThem : Prop :=
  ∀ (l : LutDescriptor) (s : State),
    ∃ img : List Byte, exec (.packLut l) s = .next { s with result := some (.image img) } ∧ img.length = 158 ∧
      (∀ v g ph : Nat, v < 5 → g < 12 → ph < 4 →
        ∃ b : Byte, img[12 * v + g]? = some b ∧ b.toNat / 4 ^ (3 - ph) % 4 = l.vsAt v g ph % 4) ∧
      (∀ g k : Nat, g < 12 → k < 7 → ∃ b : Byte, img[60 + 7 * g + k]? = some b ∧ b.toNat = l.tAt g k % 256) ∧
      (∀ g : Nat, g < 12 → ∃ b : Byte, img[144 + g / 2]? = some b ∧ b.toNat / 16 ^ (1 - g % 2) % 16 = l.frAt g % 16) ∧
      (∀ j : Nat, j < 24 → ∃ b : Byte, img[150 + j / 8]? = some b ∧ b.toNat / 2 ^ (7 - j % 8) % 2 = l.nsAt j % 2) ∧
      (∀ i : Nat, i < 5 → ∃ b : Byte, img[153 + i]? = some b ∧ b.toNat = l.scAt i % 256)

/-- UNPACKLUT of what PACKLUT returns gives the descriptor back, each field cut to its width; so a
descriptor whose fields are in range comes back whole (R234, R232). -/
def Obligations.UnpackUndoesPack : Prop :=
  ∀ (l : LutDescriptor) (s : State), l.shapeOk = true →
    ∃ img, exec (.packLut l) s = .next { s with result := some (.image img) } ∧
      exec (.unpackLut img) s = .next { s with result := some (.lut (truncated l)) } ∧
      (l.inRange = true → exec (.unpackLut img) s = .next { s with result := some (.lut l) })

/-- PACKLUT of what UNPACKLUT returns gives the image back, for every 158-byte array: there are no padding
bits (R234, R231, R233). -/
def Obligations.PackUndoesUnpack : Prop :=
  ∀ (img : List Byte) (s : State), img.length = 158 →
    ∃ l, exec (.unpackLut img) s = .next { s with result := some (.lut l) } ∧ l.shapeOk = true ∧
      l.inRange = true ∧ exec (.packLut l) s = .next { s with result := some (.image img) }

/-- LOADLUT sends the LUT register's command and the 158 bytes as they are, byte 0 first, checks nothing
and keeps nothing; on a model with no LUT register it is a no-op (R235, R236, D36). -/
def Obligations.LoadLutSendsTheWholeImage : Prop :=
  ∀ (image : List Byte) (s : State), image.length = 158 →
    (s.cfg.cmdLut = none → exec (.loadLut image) s = .next s) ∧
    (∀ c, s.cfg.cmdLut = some c → exec (.loadLut image) s = .next { s with
      fAsleep := s.fAsleep || decide (s.pst = .asleep)
      cs := .deasserted
      dc := .high
      trace := s.trace ++ .c c :: image.map .d })
end

