-- ==== Sys2Proof/Laws/State.lean ====
section
/-! SUPPORT. What each primitive update does to each field of State, one lemma per field. -/

namespace Sys2Proof.Machine

/-! ### recordTimeout: A timeout writes TMO alone (R25). -/

@[simp] theorem recordTimeout_cfg (s : State) : (recordTimeout s).cfg = s.cfg := rfl
@[simp] theorem recordTimeout_fb (s : State) : (recordTimeout s).fb = s.fb := rfl
@[simp] theorem recordTimeout_fbInit (s : State) : (recordTimeout s).fbInit = s.fbInit := rfl
@[simp] theorem recordTimeout_fbFilled (s : State) : (recordTimeout s).fbFilled = s.fbFilled := rfl
@[simp] theorem recordTimeout_cnt (s : State) : (recordTimeout s).cnt = s.cnt := rfl
@[simp] theorem recordTimeout_thr (s : State) : (recordTimeout s).thr = s.thr := rfl
@[simp] theorem recordTimeout_pst (s : State) : (recordTimeout s).pst = s.pst := rfl
@[simp] theorem recordTimeout_tmo (s : State) : (recordTimeout s).tmo = true := rfl
@[simp] theorem recordTimeout_fAsleep (s : State) : (recordTimeout s).fAsleep = s.fAsleep := rfl
@[simp] theorem recordTimeout_cs (s : State) : (recordTimeout s).cs = s.cs := rfl
@[simp] theorem recordTimeout_dc (s : State) : (recordTimeout s).dc = s.dc := rfl
@[simp] theorem recordTimeout_rstl (s : State) : (recordTimeout s).rstl = s.rstl := rfl
@[simp] theorem recordTimeout_sp (s : State) : (recordTimeout s).sp = s.sp := rfl
@[simp] theorem recordTimeout_now (s : State) : (recordTimeout s).now = s.now := rfl
@[simp] theorem recordTimeout_trace (s : State) : (recordTimeout s).trace = s.trace := rfl
@[simp] theorem recordTimeout_hostIn (s : State) : (recordTimeout s).hostIn = s.hostIn := rfl
@[simp] theorem recordTimeout_result (s : State) : (recordTimeout s).result = s.result := rfl
@[simp] theorem recordTimeout_busyIn (s : State) : (recordTimeout s).busyIn = s.busyIn := rfl
@[simp] theorem recordTimeout_busyTaken (s : State) : (recordTimeout s).busyTaken = s.busyTaken := rfl
@[simp] theorem recordTimeout_slack (s : State) : (recordTimeout s).slack = s.slack := rfl

/-! ### countUpdate: The end of an UPDATE writes CNT alone (R190). -/

@[simp] theorem countUpdate_cfg (s : State) : (countUpdate s).cfg = s.cfg := rfl
@[simp] theorem countUpdate_fb (s : State) : (countUpdate s).fb = s.fb := rfl
@[simp] theorem countUpdate_fbInit (s : State) : (countUpdate s).fbInit = s.fbInit := rfl
@[simp] theorem countUpdate_fbFilled (s : State) : (countUpdate s).fbFilled = s.fbFilled := rfl
@[simp] theorem countUpdate_cnt (s : State) : (countUpdate s).cnt = nextCount s := rfl
@[simp] theorem countUpdate_thr (s : State) : (countUpdate s).thr = s.thr := rfl
@[simp] theorem countUpdate_pst (s : State) : (countUpdate s).pst = s.pst := rfl
@[simp] theorem countUpdate_tmo (s : State) : (countUpdate s).tmo = s.tmo := rfl
@[simp] theorem countUpdate_fAsleep (s : State) : (countUpdate s).fAsleep = s.fAsleep := rfl
@[simp] theorem countUpdate_cs (s : State) : (countUpdate s).cs = s.cs := rfl
@[simp] theorem countUpdate_dc (s : State) : (countUpdate s).dc = s.dc := rfl
@[simp] theorem countUpdate_rstl (s : State) : (countUpdate s).rstl = s.rstl := rfl
@[simp] theorem countUpdate_sp (s : State) : (countUpdate s).sp = s.sp := rfl
@[simp] theorem countUpdate_now (s : State) : (countUpdate s).now = s.now := rfl
@[simp] theorem countUpdate_trace (s : State) : (countUpdate s).trace = s.trace := rfl
@[simp] theorem countUpdate_hostIn (s : State) : (countUpdate s).hostIn = s.hostIn := rfl
@[simp] theorem countUpdate_result (s : State) : (countUpdate s).result = s.result := rfl
@[simp] theorem countUpdate_busyIn (s : State) : (countUpdate s).busyIn = s.busyIn := rfl
@[simp] theorem countUpdate_busyTaken (s : State) : (countUpdate s).busyTaken = s.busyTaken := rfl
@[simp] theorem countUpdate_slack (s : State) : (countUpdate s).slack = s.slack := rfl

/-! ### fbWrite: A framebuffer write writes FB alone (R13). -/

@[simp] theorem fbWrite_cfg (a : Nat) (v : Byte) (s : State) : (fbWrite a v s).cfg = s.cfg := rfl
@[simp] theorem fbWrite_fb (a : Nat) (v : Byte) (s : State) : (fbWrite a v s).fb = s.fb.write s.fbInit a v := rfl
@[simp] theorem fbWrite_fbInit (a : Nat) (v : Byte) (s : State) : (fbWrite a v s).fbInit = s.fbInit := rfl
@[simp] theorem fbWrite_fbFilled (a : Nat) (v : Byte) (s : State) : (fbWrite a v s).fbFilled = s.fbFilled := rfl
@[simp] theorem fbWrite_cnt (a : Nat) (v : Byte) (s : State) : (fbWrite a v s).cnt = s.cnt := rfl
@[simp] theorem fbWrite_thr (a : Nat) (v : Byte) (s : State) : (fbWrite a v s).thr = s.thr := rfl
@[simp] theorem fbWrite_pst (a : Nat) (v : Byte) (s : State) : (fbWrite a v s).pst = s.pst := rfl
@[simp] theorem fbWrite_tmo (a : Nat) (v : Byte) (s : State) : (fbWrite a v s).tmo = s.tmo := rfl
@[simp] theorem fbWrite_fAsleep (a : Nat) (v : Byte) (s : State) : (fbWrite a v s).fAsleep = s.fAsleep := rfl
@[simp] theorem fbWrite_cs (a : Nat) (v : Byte) (s : State) : (fbWrite a v s).cs = s.cs := rfl
@[simp] theorem fbWrite_dc (a : Nat) (v : Byte) (s : State) : (fbWrite a v s).dc = s.dc := rfl
@[simp] theorem fbWrite_rstl (a : Nat) (v : Byte) (s : State) : (fbWrite a v s).rstl = s.rstl := rfl
@[simp] theorem fbWrite_sp (a : Nat) (v : Byte) (s : State) : (fbWrite a v s).sp = s.sp := rfl
@[simp] theorem fbWrite_now (a : Nat) (v : Byte) (s : State) : (fbWrite a v s).now = s.now := rfl
@[simp] theorem fbWrite_trace (a : Nat) (v : Byte) (s : State) : (fbWrite a v s).trace = s.trace := rfl
@[simp] theorem fbWrite_hostIn (a : Nat) (v : Byte) (s : State) : (fbWrite a v s).hostIn = s.hostIn := rfl
@[simp] theorem fbWrite_result (a : Nat) (v : Byte) (s : State) : (fbWrite a v s).result = s.result := rfl
@[simp] theorem fbWrite_busyIn (a : Nat) (v : Byte) (s : State) : (fbWrite a v s).busyIn = s.busyIn := rfl
@[simp] theorem fbWrite_busyTaken (a : Nat) (v : Byte) (s : State) : (fbWrite a v s).busyTaken = s.busyTaken := rfl
@[simp] theorem fbWrite_slack (a : Nat) (v : Byte) (s : State) : (fbWrite a v s).slack = s.slack := rfl

/-! ### markFilled: The mark of a FILL or a CLEAR alone (log 28). -/

@[simp] theorem markFilled_cfg (s : State) : (markFilled s).cfg = s.cfg := rfl
@[simp] theorem markFilled_fb (s : State) : (markFilled s).fb = s.fb := rfl
@[simp] theorem markFilled_fbInit (s : State) : (markFilled s).fbInit = s.fbInit := rfl
@[simp] theorem markFilled_fbFilled (s : State) : (markFilled s).fbFilled = true := rfl
@[simp] theorem markFilled_cnt (s : State) : (markFilled s).cnt = s.cnt := rfl
@[simp] theorem markFilled_thr (s : State) : (markFilled s).thr = s.thr := rfl
@[simp] theorem markFilled_pst (s : State) : (markFilled s).pst = s.pst := rfl
@[simp] theorem markFilled_tmo (s : State) : (markFilled s).tmo = s.tmo := rfl
@[simp] theorem markFilled_fAsleep (s : State) : (markFilled s).fAsleep = s.fAsleep := rfl
@[simp] theorem markFilled_cs (s : State) : (markFilled s).cs = s.cs := rfl
@[simp] theorem markFilled_dc (s : State) : (markFilled s).dc = s.dc := rfl
@[simp] theorem markFilled_rstl (s : State) : (markFilled s).rstl = s.rstl := rfl
@[simp] theorem markFilled_sp (s : State) : (markFilled s).sp = s.sp := rfl
@[simp] theorem markFilled_now (s : State) : (markFilled s).now = s.now := rfl
@[simp] theorem markFilled_trace (s : State) : (markFilled s).trace = s.trace := rfl
@[simp] theorem markFilled_hostIn (s : State) : (markFilled s).hostIn = s.hostIn := rfl
@[simp] theorem markFilled_result (s : State) : (markFilled s).result = s.result := rfl
@[simp] theorem markFilled_busyIn (s : State) : (markFilled s).busyIn = s.busyIn := rfl
@[simp] theorem markFilled_busyTaken (s : State) : (markFilled s).busyTaken = s.busyTaken := rfl
@[simp] theorem markFilled_slack (s : State) : (markFilled s).slack = s.slack := rfl

/-! ### transact: One transaction (R120, R121). -/

@[simp] theorem transact_cfg (l : Level) (b : Byte) (s : State) : (transact l b s).cfg = s.cfg := rfl
@[simp] theorem transact_fb (l : Level) (b : Byte) (s : State) : (transact l b s).fb = s.fb := rfl
@[simp] theorem transact_fbInit (l : Level) (b : Byte) (s : State) : (transact l b s).fbInit = s.fbInit := rfl
@[simp] theorem transact_fbFilled (l : Level) (b : Byte) (s : State) : (transact l b s).fbFilled = s.fbFilled := rfl
@[simp] theorem transact_cnt (l : Level) (b : Byte) (s : State) : (transact l b s).cnt = s.cnt := rfl
@[simp] theorem transact_thr (l : Level) (b : Byte) (s : State) : (transact l b s).thr = s.thr := rfl
@[simp] theorem transact_pst (l : Level) (b : Byte) (s : State) : (transact l b s).pst = s.pst := rfl
@[simp] theorem transact_tmo (l : Level) (b : Byte) (s : State) : (transact l b s).tmo = s.tmo := rfl
@[simp] theorem transact_fAsleep (l : Level) (b : Byte) (s : State) : (transact l b s).fAsleep = asleepAfterTransaction s := rfl
@[simp] theorem transact_cs (l : Level) (b : Byte) (s : State) : (transact l b s).cs = .deasserted := rfl
@[simp] theorem transact_dc (l : Level) (b : Byte) (s : State) : (transact l b s).dc = l := rfl
@[simp] theorem transact_rstl (l : Level) (b : Byte) (s : State) : (transact l b s).rstl = s.rstl := rfl
@[simp] theorem transact_sp (l : Level) (b : Byte) (s : State) : (transact l b s).sp = s.sp := rfl
@[simp] theorem transact_now (l : Level) (b : Byte) (s : State) : (transact l b s).now = s.now := rfl
@[simp] theorem transact_trace (l : Level) (b : Byte) (s : State) : (transact l b s).trace = s.trace ++ [busEvent l b] := rfl
@[simp] theorem transact_hostIn (l : Level) (b : Byte) (s : State) : (transact l b s).hostIn = s.hostIn := rfl
@[simp] theorem transact_result (l : Level) (b : Byte) (s : State) : (transact l b s).result = s.result := rfl
@[simp] theorem transact_busyIn (l : Level) (b : Byte) (s : State) : (transact l b s).busyIn = s.busyIn := rfl
@[simp] theorem transact_busyTaken (l : Level) (b : Byte) (s : State) : (transact l b s).busyTaken = s.busyTaken := rfl
@[simp] theorem transact_slack (l : Level) (b : Byte) (s : State) : (transact l b s).slack = s.slack := rfl

/-! ### delayFor: One delay (R123). -/

@[simp] theorem delayFor_cfg (d : Nat) (s : State) : (delayFor d s).cfg = s.cfg := rfl
@[simp] theorem delayFor_fb (d : Nat) (s : State) : (delayFor d s).fb = s.fb := rfl
@[simp] theorem delayFor_fbInit (d : Nat) (s : State) : (delayFor d s).fbInit = s.fbInit := rfl
@[simp] theorem delayFor_fbFilled (d : Nat) (s : State) : (delayFor d s).fbFilled = s.fbFilled := rfl
@[simp] theorem delayFor_cnt (d : Nat) (s : State) : (delayFor d s).cnt = s.cnt := rfl
@[simp] theorem delayFor_thr (d : Nat) (s : State) : (delayFor d s).thr = s.thr := rfl
@[simp] theorem delayFor_pst (d : Nat) (s : State) : (delayFor d s).pst = s.pst := rfl
@[simp] theorem delayFor_tmo (d : Nat) (s : State) : (delayFor d s).tmo = s.tmo := rfl
@[simp] theorem delayFor_fAsleep (d : Nat) (s : State) : (delayFor d s).fAsleep = s.fAsleep := rfl
@[simp] theorem delayFor_cs (d : Nat) (s : State) : (delayFor d s).cs = s.cs := rfl
@[simp] theorem delayFor_dc (d : Nat) (s : State) : (delayFor d s).dc = s.dc := rfl
@[simp] theorem delayFor_rstl (d : Nat) (s : State) : (delayFor d s).rstl = s.rstl := rfl
@[simp] theorem delayFor_sp (d : Nat) (s : State) : (delayFor d s).sp = s.sp := rfl
@[simp] theorem delayFor_now (d : Nat) (s : State) : (delayFor d s).now = s.now + d + s.slack.headD 0 := rfl
@[simp] theorem delayFor_trace (d : Nat) (s : State) : (delayFor d s).trace = s.trace ++ [.dly d] := rfl
@[simp] theorem delayFor_hostIn (d : Nat) (s : State) : (delayFor d s).hostIn = s.hostIn := rfl
@[simp] theorem delayFor_result (d : Nat) (s : State) : (delayFor d s).result = s.result := rfl
@[simp] theorem delayFor_busyIn (d : Nat) (s : State) : (delayFor d s).busyIn = s.busyIn := rfl
@[simp] theorem delayFor_busyTaken (d : Nat) (s : State) : (delayFor d s).busyTaken = s.busyTaken := rfl
@[simp] theorem delayFor_slack (d : Nat) (s : State) : (delayFor d s).slack = s.slack.tail := rfl

/-! ### afterSample: One sample (R123). -/

@[simp] theorem afterSample_cfg (s : State) : (afterSample s).cfg = s.cfg := rfl
@[simp] theorem afterSample_fb (s : State) : (afterSample s).fb = s.fb := rfl
@[simp] theorem afterSample_fbInit (s : State) : (afterSample s).fbInit = s.fbInit := rfl
@[simp] theorem afterSample_fbFilled (s : State) : (afterSample s).fbFilled = s.fbFilled := rfl
@[simp] theorem afterSample_cnt (s : State) : (afterSample s).cnt = s.cnt := rfl
@[simp] theorem afterSample_thr (s : State) : (afterSample s).thr = s.thr := rfl
@[simp] theorem afterSample_pst (s : State) : (afterSample s).pst = s.pst := rfl
@[simp] theorem afterSample_tmo (s : State) : (afterSample s).tmo = s.tmo := rfl
@[simp] theorem afterSample_fAsleep (s : State) : (afterSample s).fAsleep = s.fAsleep := rfl
@[simp] theorem afterSample_cs (s : State) : (afterSample s).cs = s.cs := rfl
@[simp] theorem afterSample_dc (s : State) : (afterSample s).dc = s.dc := rfl
@[simp] theorem afterSample_rstl (s : State) : (afterSample s).rstl = s.rstl := rfl
@[simp] theorem afterSample_sp (s : State) : (afterSample s).sp = s.sp := rfl
@[simp] theorem afterSample_now (s : State) : (afterSample s).now = s.now := rfl
@[simp] theorem afterSample_trace (s : State) : (afterSample s).trace = s.trace ++ [.poll (busyNow s)] := rfl
@[simp] theorem afterSample_hostIn (s : State) : (afterSample s).hostIn = s.hostIn := rfl
@[simp] theorem afterSample_result (s : State) : (afterSample s).result = s.result := rfl
@[simp] theorem afterSample_busyIn (s : State) : (afterSample s).busyIn = s.busyIn.tail := rfl
@[simp] theorem afterSample_busyTaken (s : State) : (afterSample s).busyTaken = if s.busyIn = [] then s.busyTaken + 1 else s.busyTaken := rfl
@[simp] theorem afterSample_slack (s : State) : (afterSample s).slack = s.slack := rfl

/-! ### driveLine: The reset line (R125). -/

@[simp] theorem driveLine_cfg (l : Level) (s : State) : (driveLine l s).cfg = s.cfg := rfl
@[simp] theorem driveLine_fb (l : Level) (s : State) : (driveLine l s).fb = s.fb := rfl
@[simp] theorem driveLine_fbInit (l : Level) (s : State) : (driveLine l s).fbInit = s.fbInit := rfl
@[simp] theorem driveLine_fbFilled (l : Level) (s : State) : (driveLine l s).fbFilled = s.fbFilled := rfl
@[simp] theorem driveLine_cnt (l : Level) (s : State) : (driveLine l s).cnt = s.cnt := rfl
@[simp] theorem driveLine_thr (l : Level) (s : State) : (driveLine l s).thr = s.thr := rfl
@[simp] theorem driveLine_pst (l : Level) (s : State) : (driveLine l s).pst = s.pst := rfl
@[simp] theorem driveLine_tmo (l : Level) (s : State) : (driveLine l s).tmo = s.tmo := rfl
@[simp] theorem driveLine_fAsleep (l : Level) (s : State) : (driveLine l s).fAsleep = s.fAsleep := rfl
@[simp] theorem driveLine_cs (l : Level) (s : State) : (driveLine l s).cs = s.cs := rfl
@[simp] theorem driveLine_dc (l : Level) (s : State) : (driveLine l s).dc = s.dc := rfl
@[simp] theorem driveLine_rstl (l : Level) (s : State) : (driveLine l s).rstl = l := rfl
@[simp] theorem driveLine_sp (l : Level) (s : State) : (driveLine l s).sp = s.sp := rfl
@[simp] theorem driveLine_now (l : Level) (s : State) : (driveLine l s).now = s.now := rfl
@[simp] theorem driveLine_trace (l : Level) (s : State) : (driveLine l s).trace = s.trace ++ [.rst l] := rfl
@[simp] theorem driveLine_hostIn (l : Level) (s : State) : (driveLine l s).hostIn = s.hostIn := rfl
@[simp] theorem driveLine_result (l : Level) (s : State) : (driveLine l s).result = s.result := rfl
@[simp] theorem driveLine_busyIn (l : Level) (s : State) : (driveLine l s).busyIn = s.busyIn := rfl
@[simp] theorem driveLine_busyTaken (l : Level) (s : State) : (driveLine l s).busyTaken = s.busyTaken := rfl
@[simp] theorem driveLine_slack (l : Level) (s : State) : (driveLine l s).slack = s.slack := rfl

/-! ### setPst: PST (R24). -/

@[simp] theorem setPst_cfg (p : PanelState) (s : State) : (setPst p s).cfg = s.cfg := rfl
@[simp] theorem setPst_fb (p : PanelState) (s : State) : (setPst p s).fb = s.fb := rfl
@[simp] theorem setPst_fbInit (p : PanelState) (s : State) : (setPst p s).fbInit = s.fbInit := rfl
@[simp] theorem setPst_fbFilled (p : PanelState) (s : State) : (setPst p s).fbFilled = s.fbFilled := rfl
@[simp] theorem setPst_cnt (p : PanelState) (s : State) : (setPst p s).cnt = s.cnt := rfl
@[simp] theorem setPst_thr (p : PanelState) (s : State) : (setPst p s).thr = s.thr := rfl
@[simp] theorem setPst_pst (p : PanelState) (s : State) : (setPst p s).pst = p := rfl
@[simp] theorem setPst_tmo (p : PanelState) (s : State) : (setPst p s).tmo = s.tmo := rfl
@[simp] theorem setPst_fAsleep (p : PanelState) (s : State) : (setPst p s).fAsleep = s.fAsleep := rfl
@[simp] theorem setPst_cs (p : PanelState) (s : State) : (setPst p s).cs = s.cs := rfl
@[simp] theorem setPst_dc (p : PanelState) (s : State) : (setPst p s).dc = s.dc := rfl
@[simp] theorem setPst_rstl (p : PanelState) (s : State) : (setPst p s).rstl = s.rstl := rfl
@[simp] theorem setPst_sp (p : PanelState) (s : State) : (setPst p s).sp = s.sp := rfl
@[simp] theorem setPst_now (p : PanelState) (s : State) : (setPst p s).now = s.now := rfl
@[simp] theorem setPst_trace (p : PanelState) (s : State) : (setPst p s).trace = s.trace := rfl
@[simp] theorem setPst_hostIn (p : PanelState) (s : State) : (setPst p s).hostIn = s.hostIn := rfl
@[simp] theorem setPst_result (p : PanelState) (s : State) : (setPst p s).result = s.result := rfl
@[simp] theorem setPst_busyIn (p : PanelState) (s : State) : (setPst p s).busyIn = s.busyIn := rfl
@[simp] theorem setPst_busyTaken (p : PanelState) (s : State) : (setPst p s).busyTaken = s.busyTaken := rfl
@[simp] theorem setPst_slack (p : PanelState) (s : State) : (setPst p s).slack = s.slack := rfl

/-! ### setSp: SP (R28). -/

@[simp] theorem setSp_cfg (v : Nat) (s : State) : (setSp v s).cfg = s.cfg := rfl
@[simp] theorem setSp_fb (v : Nat) (s : State) : (setSp v s).fb = s.fb := rfl
@[simp] theorem setSp_fbInit (v : Nat) (s : State) : (setSp v s).fbInit = s.fbInit := rfl
@[simp] theorem setSp_fbFilled (v : Nat) (s : State) : (setSp v s).fbFilled = s.fbFilled := rfl
@[simp] theorem setSp_cnt (v : Nat) (s : State) : (setSp v s).cnt = s.cnt := rfl
@[simp] theorem setSp_thr (v : Nat) (s : State) : (setSp v s).thr = s.thr := rfl
@[simp] theorem setSp_pst (v : Nat) (s : State) : (setSp v s).pst = s.pst := rfl
@[simp] theorem setSp_tmo (v : Nat) (s : State) : (setSp v s).tmo = s.tmo := rfl
@[simp] theorem setSp_fAsleep (v : Nat) (s : State) : (setSp v s).fAsleep = s.fAsleep := rfl
@[simp] theorem setSp_cs (v : Nat) (s : State) : (setSp v s).cs = s.cs := rfl
@[simp] theorem setSp_dc (v : Nat) (s : State) : (setSp v s).dc = s.dc := rfl
@[simp] theorem setSp_rstl (v : Nat) (s : State) : (setSp v s).rstl = s.rstl := rfl
@[simp] theorem setSp_sp (v : Nat) (s : State) : (setSp v s).sp = v := rfl
@[simp] theorem setSp_now (v : Nat) (s : State) : (setSp v s).now = s.now := rfl
@[simp] theorem setSp_trace (v : Nat) (s : State) : (setSp v s).trace = s.trace := rfl
@[simp] theorem setSp_hostIn (v : Nat) (s : State) : (setSp v s).hostIn = s.hostIn := rfl
@[simp] theorem setSp_result (v : Nat) (s : State) : (setSp v s).result = s.result := rfl
@[simp] theorem setSp_busyIn (v : Nat) (s : State) : (setSp v s).busyIn = s.busyIn := rfl
@[simp] theorem setSp_busyTaken (v : Nat) (s : State) : (setSp v s).busyTaken = s.busyTaken := rfl
@[simp] theorem setSp_slack (v : Nat) (s : State) : (setSp v s).slack = s.slack := rfl

/-! ### setThr: THR (R23). -/

@[simp] theorem setThr_cfg (n : Nat) (s : State) : (setThr n s).cfg = s.cfg := rfl
@[simp] theorem setThr_fb (n : Nat) (s : State) : (setThr n s).fb = s.fb := rfl
@[simp] theorem setThr_fbInit (n : Nat) (s : State) : (setThr n s).fbInit = s.fbInit := rfl
@[simp] theorem setThr_fbFilled (n : Nat) (s : State) : (setThr n s).fbFilled = s.fbFilled := rfl
@[simp] theorem setThr_cnt (n : Nat) (s : State) : (setThr n s).cnt = s.cnt := rfl
@[simp] theorem setThr_thr (n : Nat) (s : State) : (setThr n s).thr = n := rfl
@[simp] theorem setThr_pst (n : Nat) (s : State) : (setThr n s).pst = s.pst := rfl
@[simp] theorem setThr_tmo (n : Nat) (s : State) : (setThr n s).tmo = s.tmo := rfl
@[simp] theorem setThr_fAsleep (n : Nat) (s : State) : (setThr n s).fAsleep = s.fAsleep := rfl
@[simp] theorem setThr_cs (n : Nat) (s : State) : (setThr n s).cs = s.cs := rfl
@[simp] theorem setThr_dc (n : Nat) (s : State) : (setThr n s).dc = s.dc := rfl
@[simp] theorem setThr_rstl (n : Nat) (s : State) : (setThr n s).rstl = s.rstl := rfl
@[simp] theorem setThr_sp (n : Nat) (s : State) : (setThr n s).sp = s.sp := rfl
@[simp] theorem setThr_now (n : Nat) (s : State) : (setThr n s).now = s.now := rfl
@[simp] theorem setThr_trace (n : Nat) (s : State) : (setThr n s).trace = s.trace := rfl
@[simp] theorem setThr_hostIn (n : Nat) (s : State) : (setThr n s).hostIn = s.hostIn := rfl
@[simp] theorem setThr_result (n : Nat) (s : State) : (setThr n s).result = s.result := rfl
@[simp] theorem setThr_busyIn (n : Nat) (s : State) : (setThr n s).busyIn = s.busyIn := rfl
@[simp] theorem setThr_busyTaken (n : Nat) (s : State) : (setThr n s).busyTaken = s.busyTaken := rfl
@[simp] theorem setThr_slack (n : Nat) (s : State) : (setThr n s).slack = s.slack := rfl

/-! ### setResult: The result word (R92). -/

@[simp] theorem setResult_cfg (r : ResultWord) (s : State) : (setResult r s).cfg = s.cfg := rfl
@[simp] theorem setResult_fb (r : ResultWord) (s : State) : (setResult r s).fb = s.fb := rfl
@[simp] theorem setResult_fbInit (r : ResultWord) (s : State) : (setResult r s).fbInit = s.fbInit := rfl
@[simp] theorem setResult_fbFilled (r : ResultWord) (s : State) : (setResult r s).fbFilled = s.fbFilled := rfl
@[simp] theorem setResult_cnt (r : ResultWord) (s : State) : (setResult r s).cnt = s.cnt := rfl
@[simp] theorem setResult_thr (r : ResultWord) (s : State) : (setResult r s).thr = s.thr := rfl
@[simp] theorem setResult_pst (r : ResultWord) (s : State) : (setResult r s).pst = s.pst := rfl
@[simp] theorem setResult_tmo (r : ResultWord) (s : State) : (setResult r s).tmo = s.tmo := rfl
@[simp] theorem setResult_fAsleep (r : ResultWord) (s : State) : (setResult r s).fAsleep = s.fAsleep := rfl
@[simp] theorem setResult_cs (r : ResultWord) (s : State) : (setResult r s).cs = s.cs := rfl
@[simp] theorem setResult_dc (r : ResultWord) (s : State) : (setResult r s).dc = s.dc := rfl
@[simp] theorem setResult_rstl (r : ResultWord) (s : State) : (setResult r s).rstl = s.rstl := rfl
@[simp] theorem setResult_sp (r : ResultWord) (s : State) : (setResult r s).sp = s.sp := rfl
@[simp] theorem setResult_now (r : ResultWord) (s : State) : (setResult r s).now = s.now := rfl
@[simp] theorem setResult_trace (r : ResultWord) (s : State) : (setResult r s).trace = s.trace := rfl
@[simp] theorem setResult_hostIn (r : ResultWord) (s : State) : (setResult r s).hostIn = s.hostIn := rfl
@[simp] theorem setResult_result (r : ResultWord) (s : State) : (setResult r s).result = some r := rfl
@[simp] theorem setResult_busyIn (r : ResultWord) (s : State) : (setResult r s).busyIn = s.busyIn := rfl
@[simp] theorem setResult_busyTaken (r : ResultWord) (s : State) : (setResult r s).busyTaken = s.busyTaken := rfl
@[simp] theorem setResult_slack (r : ResultWord) (s : State) : (setResult r s).slack = s.slack := rfl

/-! ### accept: Taking a command (R92). -/

@[simp] theorem accept_cfg (rest : List Byte) (s : State) : (accept rest s).cfg = s.cfg := rfl
@[simp] theorem accept_fb (rest : List Byte) (s : State) : (accept rest s).fb = s.fb := rfl
@[simp] theorem accept_fbInit (rest : List Byte) (s : State) : (accept rest s).fbInit = s.fbInit := rfl
@[simp] theorem accept_fbFilled (rest : List Byte) (s : State) : (accept rest s).fbFilled = s.fbFilled := rfl
@[simp] theorem accept_cnt (rest : List Byte) (s : State) : (accept rest s).cnt = s.cnt := rfl
@[simp] theorem accept_thr (rest : List Byte) (s : State) : (accept rest s).thr = s.thr := rfl
@[simp] theorem accept_pst (rest : List Byte) (s : State) : (accept rest s).pst = s.pst := rfl
@[simp] theorem accept_tmo (rest : List Byte) (s : State) : (accept rest s).tmo = s.tmo := rfl
@[simp] theorem accept_fAsleep (rest : List Byte) (s : State) : (accept rest s).fAsleep = s.fAsleep := rfl
@[simp] theorem accept_cs (rest : List Byte) (s : State) : (accept rest s).cs = s.cs := rfl
@[simp] theorem accept_dc (rest : List Byte) (s : State) : (accept rest s).dc = s.dc := rfl
@[simp] theorem accept_rstl (rest : List Byte) (s : State) : (accept rest s).rstl = s.rstl := rfl
@[simp] theorem accept_sp (rest : List Byte) (s : State) : (accept rest s).sp = s.sp := rfl
@[simp] theorem accept_now (rest : List Byte) (s : State) : (accept rest s).now = s.now := rfl
@[simp] theorem accept_trace (rest : List Byte) (s : State) : (accept rest s).trace = s.trace := rfl
@[simp] theorem accept_hostIn (rest : List Byte) (s : State) : (accept rest s).hostIn = rest := rfl
@[simp] theorem accept_result (rest : List Byte) (s : State) : (accept rest s).result = none := rfl
@[simp] theorem accept_busyIn (rest : List Byte) (s : State) : (accept rest s).busyIn = s.busyIn := rfl
@[simp] theorem accept_busyTaken (rest : List Byte) (s : State) : (accept rest s).busyTaken = s.busyTaken := rfl
@[simp] theorem accept_slack (rest : List Byte) (s : State) : (accept rest s).slack = s.slack := rfl

end Sys2Proof.Machine
end

