-- ==== Sys2Proof/Laws/Memory.lean ====
section
/-! SUPPORT. The framebuffer memory: read after write, the canonical form, and what filling leaves. -/

namespace Sys2Proof.Machine

/-! ### One byte -/

theorem Memory.find_insert (m : Memory) (a b : Nat) (v : Byte) :
    (Memory.insert m a v).find b = if a = b then some v else m.find b := by
  induction m with
  | nil => by_cases h : a = b <;> simp [Memory.insert, Memory.find, h]
  | cons cell rest ih =>
    obtain ⟨k, w⟩ := cell
    simp only [Memory.insert]
    split
    · by_cases h : a = b <;> simp [Memory.find, h]
    · split
      · subst_vars
        by_cases h : k = b <;> simp [Memory.find, h]
      · simp only [Memory.find, ih]
        by_cases hk : k = b
        · subst hk
          simp_all
        · simp [hk]

theorem Memory.find_erase (m : Memory) (a b : Nat) :
    (Memory.erase m a).find b = if a = b then none else m.find b := by
  induction m with
  | nil => by_cases hab : a = b <;> simp [Memory.erase, Memory.find, hab]
  | cons cell rest ih =>
    obtain ⟨k, w⟩ := cell
    simp only [Memory.erase]
    split
    · subst_vars
      by_cases hab : k = b
      · subst hab
        simp [ih]
      · simp [Memory.find, ih, hab]
    · simp only [Memory.find, ih]
      by_cases hk : k = b
      · subst hk
        have : ¬ a = k := fun e => by simp_all
        simp [this]
      · simp [hk]

/-- Reading one byte after a write: the value there, every other byte as before. -/
theorem Memory.read_write (init : List Byte) (m : Memory) (a b : Nat) (v : Byte) :
    (m.write init a v).read init b = if a = b then v else m.read init b := by
  unfold Memory.read Memory.write
  by_cases hv : v = unwritten init a
  · rw [if_pos hv, Memory.find_erase]
    by_cases hab : a = b
    · subst hab; simp [hv]
    · simp [hab]
  · rw [if_neg hv, Memory.find_insert]
    by_cases hab : a = b <;> simp [hab]

/-! ### The canonical form -/

theorem Memory.risingFrom_weaken {m : Memory} {lo lo' : Nat} (h : m.risingFrom lo = true) (hl : lo' ≤ lo) :
    m.risingFrom lo' = true := by
  cases m with
  | nil => rfl
  | cons cell rest =>
    obtain ⟨k, w⟩ := cell
    simp only [Memory.risingFrom, Bool.and_eq_true, decide_eq_true_eq] at h ⊢
    exact ⟨by omega, h.2⟩

theorem Memory.risingFrom_insert {m : Memory} {lo a : Nat} {v : Byte} (h : m.risingFrom lo = true) (ha : lo ≤ a) :
    (m.insert a v).risingFrom lo = true := by
  induction m generalizing lo with
  | nil => simp [Memory.insert, Memory.risingFrom, ha]
  | cons cell rest ih =>
    obtain ⟨k, w⟩ := cell
    simp only [Memory.risingFrom, Bool.and_eq_true, decide_eq_true_eq] at h
    simp only [Memory.insert]
    split
    · simp only [Memory.risingFrom, Bool.and_eq_true, decide_eq_true_eq]
      exact ⟨ha, by omega, h.2⟩
    · split
      · subst_vars
        simp only [Memory.risingFrom, Bool.and_eq_true, decide_eq_true_eq]
        exact h
      · simp only [Memory.risingFrom, Bool.and_eq_true, decide_eq_true_eq]
        exact ⟨h.1, ih h.2 (by omega)⟩

theorem Memory.risingFrom_erase {m : Memory} {lo a : Nat} (h : m.risingFrom lo = true) :
    (m.erase a).risingFrom lo = true := by
  induction m generalizing lo with
  | nil => rfl
  | cons cell rest ih =>
    obtain ⟨k, w⟩ := cell
    simp only [Memory.risingFrom, Bool.and_eq_true, decide_eq_true_eq] at h
    simp only [Memory.erase]
    split
    · exact Memory.risingFrom_weaken (ih h.2) (by omega)
    · simp only [Memory.risingFrom, Bool.and_eq_true, decide_eq_true_eq]
      exact ⟨h.1, ih h.2⟩

/-- Every entry of an insertion is the new one or an old one. -/
theorem Memory.mem_insert {m : Memory} {a : Nat} {v : Byte} {cell : Host.Cell} (h : cell ∈ m.insert a v) :
    cell = (a, v) ∨ cell ∈ m := by
  induction m with
  | nil => simpa [Memory.insert] using h
  | cons first rest ih =>
    obtain ⟨k, w⟩ := first
    simp only [Memory.insert] at h
    split at h
    · simpa using h
    · split at h
      · rcases List.mem_cons.1 h with h | h
        · exact .inl h
        · exact .inr (List.mem_cons_of_mem _ h)
      · rcases List.mem_cons.1 h with h | h
        · exact .inr (h ▸ List.mem_cons_self)
        · exact (ih h).imp_right (List.mem_cons_of_mem _)

theorem Memory.mem_erase {m : Memory} {a : Nat} {cell : Host.Cell} (h : cell ∈ m.erase a) : cell ∈ m := by
  induction m with
  | nil => exact h
  | cons first rest ih =>
    obtain ⟨k, w⟩ := first
    simp only [Memory.erase] at h
    split at h
    · exact List.mem_cons_of_mem _ (ih h)
    · rcases List.mem_cons.1 h with h | h
      · exact h ▸ List.mem_cons_self
      · exact List.mem_cons_of_mem _ (ih h)

/-- A write keeps the canonical form. -/
theorem Memory.wf_write {init : List Byte} {m : Memory} (h : m.wf init = true) (a : Nat) (v : Byte) :
    (m.write init a v).wf init = true := by
  simp only [Memory.wf, Bool.and_eq_true, List.all_eq_true, decide_eq_true_eq] at h ⊢
  unfold Memory.write
  by_cases hv : v = unwritten init a
  · rw [if_pos hv]
    exact ⟨Memory.risingFrom_erase h.1, fun cell hc => h.2 cell (Memory.mem_erase hc)⟩
  · rw [if_neg hv]
    refine ⟨Memory.risingFrom_insert h.1 (Nat.zero_le a), fun cell hc => ?_⟩
    rcases Memory.mem_insert hc with rfl | hc
    · exact hv
    · exact h.2 cell hc

/-- A write below `len` lists nothing at or above it. -/
theorem Memory.below_write {init : List Byte} {m : Memory} {len a : Nat} {v : Byte} (h : m.below len = true)
    (ha : a < len) : (m.write init a v).below len = true := by
  simp only [Memory.below, List.all_eq_true, decide_eq_true_eq] at h ⊢
  intro cell hc
  unfold Memory.write at hc
  split at hc
  · exact h cell (Memory.mem_erase hc)
  · rcases Memory.mem_insert hc with rfl | hc
    · exact ha
    · exact h cell hc

/-! ### Through the state -/

theorem fbRead_fbWrite (s : State) (a b : Nat) (v : Byte) :
    fbRead (fbWrite a v s) b = if a = b then v else fbRead s b :=
  Memory.read_write _ _ a b v

/-- Filling changes FB alone. -/
theorem fbFill_eq (base : Nat) (v : Byte) (n : Nat) (s : State) :
    fbFill base v n s = { s with fb := (fbFill base v n s).fb } := by
  induction n with
  | zero => rfl
  | succ n ih => simp only [fbFill, fbWrite]; rw [ih]

theorem fbFill_wf {s : State} (h : s.fb.wf s.fbInit = true) (base : Nat) (v : Byte) (n : Nat) :
    (fbFill base v n s).fb.wf s.fbInit = true := by
  induction n with
  | zero => exact h
  | succ n ih =>
    have hi : (fbFill base v n s).fbInit = s.fbInit := by rw [fbFill_eq]
    simp only [fbFill, fbWrite, hi]
    exact Memory.wf_write ih _ _

theorem fbFill_below {s : State} {len base n : Nat} (h : s.fb.below len = true) (v : Byte) (hn : base + n ≤ len) :
    (fbFill base v n s).fb.below len = true := by
  induction n with
  | zero => exact h
  | succ n ih => exact Memory.below_write (ih (by omega)) (by omega)

/-- Reading after filling: the value inside the range, every other byte as before. -/
theorem fbRead_fbFill (s : State) (base : Nat) (v : Byte) (n b : Nat) :
    fbRead (fbFill base v n s) b = if base ≤ b ∧ b < base + n then v else fbRead s b := by
  induction n with
  | zero =>
    have : ¬ (base ≤ b ∧ b < base + 0) := by omega
    simp only [fbFill, this, if_false]
  | succ n ih =>
    simp only [fbFill]
    rw [fbRead_fbWrite, ih]
    by_cases h1 : base + n = b
    · have : base ≤ b ∧ b < base + (n + 1) := by omega
      simp [h1, this]
    · by_cases h2 : base ≤ b ∧ b < base + n
      · have : base ≤ b ∧ b < base + (n + 1) := by omega
        simp [h1, h2, this]
      · have : ¬ (base ≤ b ∧ b < base + (n + 1)) := by omega
        simp [h1, h2, this]

/-- The mark changes no byte. -/
theorem fbRead_markFilled (s : State) (a : Nat) : fbRead (markFilled s) a = fbRead s a := rfl

/-- Filling the planes changes FB and sets its mark, and nothing else. -/
theorem fbFillPlanes_eq (b0 b1 : Byte) (s : State) :
    fbFillPlanes b0 b1 s = { s with fb := (fbFillPlanes b0 b1 s).fb, fbFilled := true } := by
  simp only [fbFillPlanes, markFilled]
  split
  · rw [fbFill_eq, fbFill_eq]
  · rw [fbFill_eq]

theorem fbFillPlanes_wf {s : State} (h : s.fb.wf s.fbInit = true) (b0 b1 : Byte) :
    (fbFillPlanes b0 b1 s).fb.wf s.fbInit = true := by
  simp only [fbFillPlanes, markFilled_fb]
  split
  · have hi : ∀ base v n, (fbFill base v n s).fbInit = s.fbInit := fun base v n => by rw [fbFill_eq]
    have := fbFill_wf (s := fbFill (planeBase s.cfg .bw) b0 (planeSize s.cfg) s)
      (by rw [hi]; exact fbFill_wf h _ _ _) (planeBase s.cfg .ac) b1 (planeSize s.cfg)
    rwa [hi] at this
  · exact fbFill_wf h _ _ _

theorem planeBase_bw (c : Config) : planeBase c .bw = 0 := by simp [planeBase, planeIndex]

theorem planeBase_ac (c : Config) : planeBase c .ac = planeSize c := by simp [planeBase, planeIndex]

theorem bufLength_eq (c : Config) : bufLength c = if c.hasAccent then 2 * planeSize c else planeSize c := by
  unfold bufLength planeCount
  split <;> omega

theorem fbFillPlanes_below {s : State} (h : s.fb.below (bufLength s.cfg) = true) (b0 b1 : Byte) :
    (fbFillPlanes b0 b1 s).fb.below (bufLength s.cfg) = true := by
  have hl := bufLength_eq s.cfg
  simp only [fbFillPlanes, markFilled_fb, planeBase_bw, planeBase_ac]
  split
  · rw [if_pos ‹_›] at hl
    exact fbFill_below (fbFill_below h _ (by omega)) _ (by omega)
  · rw [if_neg ‹_›] at hl
    exact fbFill_below h _ (by omega)

/-- Reading after a fill of the planes: each plane's byte, and every other address as before. -/
theorem fbRead_fbFillPlanes (s : State) (b0 b1 : Byte) (a : Nat) :
    fbRead (fbFillPlanes b0 b1 s) a =
      if a < planeSize s.cfg then b0
      else if s.cfg.hasAccent = true ∧ a < 2 * planeSize s.cfg then b1 else fbRead s a := by
  simp only [fbFillPlanes, fbRead_markFilled, planeBase_bw, planeBase_ac]
  split
  · rename_i hacc
    rw [fbRead_fbFill, fbRead_fbFill]
    by_cases h1 : a < planeSize s.cfg
    · have : ¬ (planeSize s.cfg ≤ a ∧ a < planeSize s.cfg + planeSize s.cfg) := by omega
      have h0 : 0 ≤ a ∧ a < 0 + planeSize s.cfg := by omega
      simp [h1, this]
    · by_cases h2 : a < 2 * planeSize s.cfg
      · have : planeSize s.cfg ≤ a ∧ a < planeSize s.cfg + planeSize s.cfg := by omega
        simp [h1, h2, this, hacc]
      · have : ¬ (planeSize s.cfg ≤ a ∧ a < planeSize s.cfg + planeSize s.cfg) := by omega
        simp [h1, h2, this]
  · rename_i hacc
    rw [fbRead_fbFill]
    by_cases h1 : a < planeSize s.cfg <;> simp [h1, hacc]

/-! ### One pixel -/

theorem replaceBit_getLsbD (old : Byte) {i j : Nat} (v : Bool) (hi : i < 8) (hj : j < 8) :
    (replaceBit old i v).getLsbD j = if j = i then v else old.getLsbD j := by
  interval_cases i <;> interval_cases j <;> cases v <;> simp [replaceBit]

theorem bitPos_lt (c : Config) (x : Nat) : bitPos c x < 8 := by
  unfold bitPos
  split <;> omega

/-- An in-bounds pixel lies in the framebuffer (R159). -/
theorem pixelAddr_below (c : Config) (k : ColorClass) (x y : Nat) (hx : x < c.width) (hy : y < c.height) :
    pixelAddr c (pixelTarget c k).1 x y < bufLength c := by
  have h1 : y * stride c + x / 8 < planeSize c := by
    have hs : x / 8 < stride c := by unfold stride ceil8; omega
    have : (y + 1) * stride c ≤ c.height * stride c := Nat.mul_le_mul_right _ (by omega)
    unfold planeSize
    rw [Nat.mul_comm (stride c)]
    have : (y + 1) * stride c = y * stride c + stride c := by ring
    omega
  have hl := bufLength_eq c
  unfold pixelAddr pixelTarget
  cases hacc : c.hasAccent <;> simp only [hacc] at hl <;> cases k <;> simp [planeBase, planeIndex] at * <;> omega

end Sys2Proof.Machine
end

