-- ==== Sys2Proof/Laws/Bus.lean ====
section
/-! SUPPORT. What the bus operations do, in closed form, and what any activity of the sequencer can do. -/

namespace Sys2Proof.Machine

/-- A payload: one transaction per byte, and nothing for the empty list (R122). -/
theorem sendPayload_eq (l : List Byte) (s : State) :
    sendPayload l s =
      { s with
        fAsleep := if l = [] then s.fAsleep else asleepAfterTransaction s
        cs := if l = [] then s.cs else .deasserted
        dc := if l = [] then s.dc else .high
        trace := s.trace ++ l.map .d } := by
  induction l generalizing s with
  | nil => simp [sendPayload]
  | cons b rest ih =>
    rw [sendPayload, ih]
    by_cases h : rest = []
    · simp [h, sendByte, transact, busEvent, asleepAfterTransaction]
    · simp [h, sendByte, transact, busEvent, asleepAfterTransaction]
      exact fun hd => .inr (of_decide_eq_true hd)

/-- A register write: the command, then one data transaction per byte (R122). -/
theorem sendWrite_eq (c : Byte) (l : List Byte) (s : State) :
    sendWrite c l s =
      { s with
        fAsleep := asleepAfterTransaction s
        cs := .deasserted
        dc := if l = [] then .low else .high
        trace := s.trace ++ .c c :: l.map .d } := by
  rw [sendWrite, sendPayload_eq]
  by_cases h : l = []
  · simp [h, sendCommand, transact, busEvent, asleepAfterTransaction]
  · simp [h, sendCommand, transact, busEvent, asleepAfterTransaction]
    exact fun hd => .inr (of_decide_eq_true hd)

/-! ### Readings of an appended trace -/

theorem delaySum_append (v w : List Event) : delaySum (v ++ w) = delaySum v + delaySum w := by
  induction v with
  | nil => simp [delaySum]
  | cons e v ih => cases e <;> simp [delaySum, ih, Nat.add_assoc]

theorem modeAfter_append (v w : List Event) (l : Level) : modeAfter (v ++ w) l = modeAfter w (modeAfter v l) := by
  induction v generalizing l with
  | nil => rfl
  | cons e v ih => cases e <;> simp [modeAfter, ih]

theorem resetAfter_append (v w : List Event) (l : Level) :
    resetAfter (v ++ w) l = resetAfter w (resetAfter v l) := by
  induction v generalizing l with
  | nil => rfl
  | cons e v ih => cases e <;> simp [resetAfter, ih]

theorem drivenEvents_append (v w : List Event) : drivenEvents (v ++ w) = drivenEvents v ++ drivenEvents w := by
  simp [drivenEvents]

theorem modeAfter_data (l : List Byte) (v : Level) : modeAfter (l.map .d) v = if l = [] then v else .high := by
  induction l generalizing v with
  | nil => rfl
  | cons b l ih => by_cases h : l = [] <;> simp [modeAfter, ih, h]

theorem resetAfter_data (l : List Byte) (v : Level) : resetAfter (l.map .d) v = v := by
  induction l with
  | nil => rfl
  | cons b l ih => simpa [resetAfter] using ih

theorem delaySum_data (l : List Byte) : delaySum (l.map .d) = 0 := by
  induction l with
  | nil => rfl
  | cons b l ih => simpa [delaySum] using ih

/-! ### What any operation can do -/

/-- What no operation goes beyond: the descriptor, the power-on bytes and the port stay, the sticky flags
stay set, select stays deasserted, time does not run back, and the trace grows by events that account for
the latches and, in the reference reading, for the time. -/
structure Effect (s t : State) : Prop where
  cfg : t.cfg = s.cfg
  fbInit : t.fbInit = s.fbInit
  hostIn : t.hostIn = s.hostIn
  tmo : s.tmo = true → t.tmo = true
  fAsleep : s.fAsleep = true → t.fAsleep = true
  cs : s.cs = .deasserted → t.cs = .deasserted
  now : s.now ≤ t.now
  events : ∃ w, t.trace = s.trace ++ w ∧ t.dc = modeAfter w s.dc ∧ t.rstl = resetAfter w s.rstl ∧
    (s.slack = [] → t.slack = [] ∧ t.now = s.now + delaySum w)

/-- What the sequencer does between two writes of a register: FB and its mark, CNT, THR, PST and the result
stay, and an awake panel is not marked asleep. -/
structure Activity (s t : State) : Prop extends Effect s t where
  fb : t.fb = s.fb
  fbFilled : t.fbFilled = s.fbFilled
  cnt : t.cnt = s.cnt
  thr : t.thr = s.thr
  pst : t.pst = s.pst
  result : t.result = s.result
  awake : s.pst ≠ .asleep → t.fAsleep = s.fAsleep

/-- Without an event, only the fields named in `Effect` matter. -/
theorem Effect.of_quiet {s t : State} (cfg : t.cfg = s.cfg) (fbInit : t.fbInit = s.fbInit)
    (hostIn : t.hostIn = s.hostIn) (tmo : s.tmo = true → t.tmo = true) (fAsleep : t.fAsleep = s.fAsleep)
    (cs : t.cs = s.cs) (dc : t.dc = s.dc) (rstl : t.rstl = s.rstl) (now : t.now = s.now)
    (trace : t.trace = s.trace) (slack : t.slack = s.slack) : Effect s t where
  cfg := cfg
  fbInit := fbInit
  hostIn := hostIn
  tmo := tmo
  fAsleep h := by rw [fAsleep, h]
  cs h := by rw [cs, h]
  now := by omega
  events := ⟨[], by simp [trace], by simp [modeAfter, dc], by simp [resetAfter, rstl],
    fun h => ⟨by rw [slack, h], by simp [delaySum, now]⟩⟩

theorem Effect.refl (s : State) : Effect s s :=
  .of_quiet rfl rfl rfl id rfl rfl rfl rfl rfl rfl rfl

theorem Effect.trans {s t u : State} (h : Effect s t) (k : Effect t u) : Effect s u where
  cfg := k.cfg.trans h.cfg
  fbInit := k.fbInit.trans h.fbInit
  hostIn := k.hostIn.trans h.hostIn
  tmo := k.tmo ∘ h.tmo
  fAsleep := k.fAsleep ∘ h.fAsleep
  cs := k.cs ∘ h.cs
  now := Nat.le_trans h.now k.now
  events := by
    obtain ⟨v, hv, hd, hr, ht⟩ := h.events
    obtain ⟨w, kw, kd, kr, kt⟩ := k.events
    refine ⟨v ++ w, by rw [kw, hv, List.append_assoc], by rw [kd, hd, modeAfter_append],
      by rw [kr, hr, resetAfter_append], fun hs => ?_⟩
    obtain ⟨h1, h2⟩ := ht hs
    obtain ⟨k1, k2⟩ := kt h1
    exact ⟨k1, by rw [k2, h2, delaySum_append, Nat.add_assoc]⟩

theorem Activity.refl (s : State) : Activity s s := ⟨.refl s, rfl, rfl, rfl, rfl, rfl, rfl, fun _ => rfl⟩

theorem Activity.trans {s t u : State} (h : Activity s t) (k : Activity t u) : Activity s u where
  toEffect := h.toEffect.trans k.toEffect
  fb := k.fb.trans h.fb
  fbFilled := k.fbFilled.trans h.fbFilled
  cnt := k.cnt.trans h.cnt
  thr := k.thr.trans h.thr
  pst := k.pst.trans h.pst
  result := k.result.trans h.result
  awake hs := (k.awake (by rw [h.pst]; exact hs)).trans (h.awake hs)

theorem recordTimeout_activity (s : State) : Activity s (recordTimeout s) :=
  ⟨.of_quiet rfl rfl rfl (fun _ => rfl) rfl rfl rfl rfl rfl rfl rfl, rfl, rfl, rfl, rfl, rfl, rfl, fun _ => rfl⟩

theorem setSp_activity (v : Nat) (s : State) : Activity s (setSp v s) :=
  ⟨.of_quiet rfl rfl rfl id rfl rfl rfl rfl rfl rfl rfl, rfl, rfl, rfl, rfl, rfl, rfl, fun _ => rfl⟩

theorem transact_activity (l : Level) (b : Byte) (s : State) : Activity s (transact l b s) where
  cfg := rfl
  fbInit := rfl
  hostIn := rfl
  tmo := id
  fAsleep h := by simp [asleepAfterTransaction, h]
  cs _ := rfl
  now := Nat.le_refl _
  events := ⟨[busEvent l b], rfl, by cases l <;> rfl, by cases l <;> rfl,
    fun h => ⟨h, by cases l <;> simp [delaySum, busEvent]⟩⟩
  fb := rfl
  fbFilled := rfl
  cnt := rfl
  thr := rfl
  pst := rfl
  result := rfl
  awake h := by simp [asleepAfterTransaction, h]

theorem delayFor_activity (d : Nat) (s : State) : Activity s (delayFor d s) where
  cfg := rfl
  fbInit := rfl
  hostIn := rfl
  tmo := id
  fAsleep := id
  cs := id
  now := by simp only [delayFor_now]; omega
  events := ⟨[.dly d], rfl, rfl, rfl, fun h => by simp [h, delaySum]⟩
  fb := rfl
  fbFilled := rfl
  cnt := rfl
  thr := rfl
  pst := rfl
  result := rfl
  awake _ := rfl

theorem afterSample_activity (s : State) : Activity s (afterSample s) where
  cfg := rfl
  fbInit := rfl
  hostIn := rfl
  tmo := id
  fAsleep := id
  cs := id
  now := Nat.le_refl _
  events := ⟨[.poll (busyNow s)], rfl, rfl, rfl, fun h => ⟨h, rfl⟩⟩
  fb := rfl
  fbFilled := rfl
  cnt := rfl
  thr := rfl
  pst := rfl
  result := rfl
  awake _ := rfl

theorem driveLine_activity (l : Level) (s : State) : Activity s (driveLine l s) where
  cfg := rfl
  fbInit := rfl
  hostIn := rfl
  tmo := id
  fAsleep := id
  cs := id
  now := Nat.le_refl _
  events := ⟨[.rst l], rfl, rfl, rfl, fun h => ⟨h, rfl⟩⟩
  fb := rfl
  fbFilled := rfl
  cnt := rfl
  thr := rfl
  pst := rfl
  result := rfl
  awake _ := rfl

theorem sendPayload_activity (l : List Byte) (s : State) : Activity s (sendPayload l s) := by
  induction l generalizing s with
  | nil => exact .refl s
  | cons b rest ih => exact (transact_activity .high b s).trans (ih _)

theorem sendWrite_activity (c : Byte) (l : List Byte) (s : State) : Activity s (sendWrite c l s) :=
  (transact_activity .low c s).trans (sendPayload_activity l _)

theorem sendLut_activity (img : List Byte) (s : State) : Activity s (sendLut img s) := by
  unfold sendLut
  split
  · exact .refl s
  · exact sendWrite_activity _ _ s

theorem sendPlane_activity (p : Plane) (s : State) : Activity s (sendPlane p s) := sendWrite_activity _ _ s

/-! ### Waiting -/

/-- A wait only samples, delays and may record a timeout. -/
structure Waited (s t : State) : Prop where
  activity : Activity s t
  fAsleep : t.fAsleep = s.fAsleep
  cs : t.cs = s.cs
  dc : t.dc = s.dc
  rstl : t.rstl = s.rstl
  sp : t.sp = s.sp
  events : ∃ w, t.trace = s.trace ++ w ∧ w.all (fun e => !e.driven) = true

theorem Waited.trans {s t u : State} (h : Waited s t) (k : Waited t u) : Waited s u where
  activity := h.activity.trans k.activity
  fAsleep := k.fAsleep.trans h.fAsleep
  cs := k.cs.trans h.cs
  dc := k.dc.trans h.dc
  rstl := k.rstl.trans h.rstl
  sp := k.sp.trans h.sp
  events := by
    obtain ⟨v, hv, hd⟩ := h.events
    obtain ⟨w, kw, kd⟩ := k.events
    exact ⟨v ++ w, by rw [kw, hv, List.append_assoc], by simp [List.all_append, hd, kd]⟩

theorem recordTimeout_waited (s : State) : Waited s (recordTimeout s) :=
  ⟨recordTimeout_activity s, rfl, rfl, rfl, rfl, rfl, [], by simp, rfl⟩

theorem delayFor_waited (d : Nat) (s : State) : Waited s (delayFor d s) :=
  ⟨delayFor_activity d s, rfl, rfl, rfl, rfl, rfl, [.dly d], rfl, rfl⟩

theorem afterSample_waited (s : State) : Waited s (afterSample s) :=
  ⟨afterSample_activity s, rfl, rfl, rfl, rfl, rfl, [.poll (busyNow s)], rfl, rfl⟩

theorem pollLoop_waited (t t0 fuel : Nat) (s : State) : Waited s (pollLoop t t0 fuel s).2 := by
  induction fuel generalizing s with
  | zero => exact recordTimeout_waited s
  | succ fuel ih =>
    unfold pollLoop
    split
    · exact afterSample_waited s
    · split
      · exact (afterSample_waited s).trans (recordTimeout_waited _)
      · exact ((afterSample_waited s).trans (delayFor_waited _ _)).trans (ih _)

theorem waitUntilIdle_waited (t : Nat) (s : State) : Waited s (waitUntilIdle t s).2 := by
  unfold waitUntilIdle
  split
  · exact pollLoop_waited _ _ _ s
  · exact delayFor_waited _ s

theorem pace_waited (s : State) : Waited s (pace s) := waitUntilIdle_waited _ s

/-- A wait whose result is discarded: what WAITIDLE leaves, with the result as it was (R124, R182, R188). -/
theorem pace_eq (s : State) :
    pace s = { setResult (.wait (waitUntilIdle s.cfg.idleTimeoutMs s).1) (waitUntilIdle s.cfg.idleTimeoutMs s).2 with
      result := s.result } := by
  rw [← (pace_waited s).activity.result]
  rfl

/-- A plane: its command, then its bytes as stored (R187). -/
theorem sendPlane_eq (p : Plane) (s : State) : sendPlane p s = { s with
      fAsleep := s.fAsleep || decide (s.pst = .asleep)
      cs := .deasserted
      dc := if planeSize s.cfg = 0 then .low else .high
      trace := s.trace ++ .c (planeCommand s.cfg p) ::
        (List.range (planeSize s.cfg)).map (fun k => .d (fbRead s (planeBase s.cfg p + k))) } := by
  rw [sendPlane, sendWrite_eq]
  simp [planeBytes, asleepAfterTransaction]

/-- `n` busy samples, each followed by a delay, in the reference reading of time (R124). -/
def polled (n : Nat) (s : State) : State :=
  { s with
    now := s.now + s.cfg.pollMs * n
    busyIn := s.busyIn.drop n
    trace := s.trace ++ (List.replicate n [.poll s.cfg.busyActive, .dly s.cfg.pollMs]).flatten }

/-- While the listed samples are busy and the deadline is ahead, the poll loop samples and delays (R124). -/
theorem pollLoop_polled (t t0 : Nat) (n fuel : Nat) (s : State) (hs : s.slack = []) (h0 : t0 ≤ s.now)
    (hb : ∀ k, k < n → s.busyIn[k]? = some s.cfg.busyActive)
    (hn : ∀ k, k < n → s.now - t0 + s.cfg.pollMs * k < t) :
    pollLoop t t0 (n + fuel) s = pollLoop t t0 fuel (polled n s) := by
  induction n generalizing s with
  | zero => simp [polled]
  | succ n ih =>
    have hb0 := hb 0 (by omega)
    have hn0 := hn 0 (by omega)
    cases hbl : s.busyIn with
    | nil => simp [hbl] at hb0
    | cons v later =>
      simp only [hbl, List.getElem?_cons_zero, Option.some.injEq] at hb0
      subst hb0
      have hbn : busyNow s = s.cfg.busyActive := by simp [busyNow, hbl]
      rw [show n + 1 + fuel = (n + fuel) + 1 from by omega, pollLoop, if_neg (by simp [hbn]),
        if_neg (by simp only [afterSample_now]; omega), ih]
      · congr 1
        simp only [polled, delayFor, afterSample, hbl, hbn, hs, List.headD_nil, List.tail_cons, List.tail_nil,
          List.drop_succ_cons, List.replicate_succ, List.flatten_cons, List.append_assoc, Nat.add_zero,
          List.cons_append, List.nil_append, Nat.mul_succ]
        simp
        omega
      · simp [hs]
      · simp only [delayFor_now, afterSample_now]
        omega
      · intro k hk
        simpa [hbl] using hb (k + 1) (by omega)
      · intro k hk
        have := hn (k + 1) (by omega)
        rw [Nat.mul_add] at this
        simp only [delayFor_now, afterSample_now, delayFor_cfg, afterSample_cfg, afterSample_slack, hs, List.headD_nil]
        omega

end Sys2Proof.Machine
end

