-- ==== Sys2Proof/Laws/Encode.lean ====
section
/-! SUPPORT. The byte-order helpers of the decoder and the encoder, and what reading operands answers. -/

namespace Sys2Proof

theorem natToBytes_length (n v : Nat) : (natToBytes n v).length = n := by
  induction n with
  | zero => rfl
  | succ n ih => simp [natToBytes, ih]

theorem foldl_bytes (bs : List Byte) (acc : Nat) :
    bs.foldl (fun acc b => acc * 256 + b.toNat) acc = acc * 256 ^ bs.length + bytesToNat bs := by
  induction bs generalizing acc with
  | nil => simp [bytesToNat]
  | cons b bs ih =>
    simp only [bytesToNat, List.foldl_cons, List.length_cons, Nat.zero_mul, Nat.zero_add]
    rw [ih, ih b.toNat]
    ring

theorem bytesToNat_cons (b : Byte) (bs : List Byte) :
    bytesToNat (b :: bs) = b.toNat * 256 ^ bs.length + bytesToNat bs := by
  rw [bytesToNat, List.foldl_cons, foldl_bytes]
  simp

theorem bytesToNat_lt (bs : List Byte) : bytesToNat bs < 256 ^ bs.length := by
  induction bs with
  | nil => simp [bytesToNat]
  | cons b bs ih =>
    rw [bytesToNat_cons, List.length_cons, pow_succ]
    have hb := b.isLt
    have : b.toNat * 256 ^ bs.length ≤ 255 * 256 ^ bs.length := Nat.mul_le_mul_right _ (by omega)
    omega

/-- The bytes of a number read back as the number, cut to their width. -/
theorem bytesToNat_natToBytes (n v : Nat) : bytesToNat (natToBytes n v) = v % 256 ^ n := by
  induction n with
  | zero => simp [natToBytes, bytesToNat, Nat.mod_one]
  | succ n ih =>
    have h := Nat.mod_mul (a := 256 ^ n) (b := 256) (x := v)
    rw [natToBytes, bytesToNat_cons, natToBytes_length, ih, BitVec.toNat_ofNat,
      show (256 : Nat) ^ (n + 1) = 256 ^ n * 256 from pow_succ _ _, h]
    norm_num
    ring

/-- The number of some bytes has those bytes. -/
theorem natToBytes_bytesToNat (bs : List Byte) : natToBytes bs.length (bytesToNat bs) = bs := by
  induction bs with
  | nil => rfl
  | cons b bs ih =>
    have hlt := bytesToNat_lt bs
    have hpos : 0 < 256 ^ bs.length := by positivity
    have hsub : ∀ n k w, natToBytes n (k * 256 ^ n + w) = natToBytes n w := by
      intro n
      induction n with
      | zero => intros; rfl
      | succ n ihn =>
        intro k w
        have hp : 0 < 256 ^ n := by positivity
        have h1 : k * 256 ^ (n + 1) + w = (k * 256) * 256 ^ n + w := by rw [pow_succ]; ring
        have h2 : ((k * 256) * 256 ^ n + w) / 256 ^ n = k * 256 + w / 256 ^ n := by
          rw [Nat.add_comm, Nat.add_mul_div_right _ _ hp, Nat.add_comm]
        rw [natToBytes, h1, h2, ihn, natToBytes]
        congr 1
        apply BitVec.eq_of_toNat_eq
        simp only [BitVec.toNat_ofNat]
        omega
    rw [bytesToNat_cons, List.length_cons, natToBytes, hsub, ih]
    congr 1
    rw [Nat.add_comm, Nat.add_mul_div_right _ _ hpos, Nat.div_eq_of_lt hlt]
    simp

theorem colorToBytes_length (n color : Nat) : (colorToBytes n color).length = colorBytes n := natToBytes_length _ _

theorem colorBytes_covers (n : Nat) : n + colorPad n = 8 * colorBytes n := by
  unfold colorPad colorBytes
  omega

/-- A colour of `n` bits reads back from its bytes (R93). -/
theorem colorOfBytes_colorToBytes {n color : Nat} (h : color < 2 ^ n) :
    colorOfBytes n (colorToBytes n color) = color := by
  have hp : 0 < 2 ^ colorPad n := by positivity
  have : color * 2 ^ colorPad n < 256 ^ colorBytes n := by
    have h256 : (256 : Nat) ^ colorBytes n = 2 ^ n * 2 ^ colorPad n := by
      rw [← pow_add, colorBytes_covers, pow_mul]
      norm_num
    rw [h256]
    exact Nat.mul_lt_mul_of_pos_right h hp
  rw [colorOfBytes, colorToBytes, bytesToNat_natToBytes, Nat.mod_eq_of_lt this, Nat.mul_div_cancel _ hp]

/-- Reading exactly the operand bytes that stand first. -/
theorem withOperands_append {α : Type} (bs rest : List Byte) (f : List Byte → α) :
    withOperands bs.length (bs ++ rest) f = .ok (f bs, rest) := by
  simp [withOperands]

theorem withOperands_ok {α : Type} {n : Nat} {bs rest : List Byte} {f : List Byte → α} {x : α}
    (h : withOperands n bs f = .ok (x, rest)) :
    ∃ op, op.length = n ∧ bs = op ++ rest ∧ x = f op := by
  unfold withOperands at h
  split at h
  · cases h
    exact ⟨bs.take n, by simpa using ‹n ≤ bs.length›, by simp, rfl⟩
  · cases h

end Sys2Proof
end

