-- ==== Sys2Proof/Laws/Lut.lean ====
section
/-! SUPPORT. The LUT image: which byte stands where, and each packed byte as a number. -/

namespace Sys2Proof.Machine

/-! ### The five regions (R231) -/

theorem packImage_length (l : LutDescriptor) : (packImage l).length = 158 := by simp [packImage]

theorem sub_add_comm_of (a b c : Nat) : a + c - b = c + a - b := by omega

theorem packImage_phase (l : LutDescriptor) {k : Nat} (h : k < 60) :
    (packImage l)[k]? = some (phaseByte l (k / 12) (k % 12)) := by
  simp only [packImage, List.append_assoc]
  rw [List.getElem?_append_left (by simpa using h)]
  simp [h]

theorem packImage_timing (l : LutDescriptor) {k : Nat} (h : k < 84) :
    (packImage l)[60 + k]? = some (BitVec.ofNat 8 (l.tAt (k / 7) (k % 7))) := by
  simp only [packImage, List.append_assoc]
  rw [List.getElem?_append_right (by simp), List.getElem?_append_left (by simp; omega)]
  simp [h]

theorem packImage_frameRate (l : LutDescriptor) {k : Nat} (h : k < 6) :
    (packImage l)[144 + k]? = some (frameRateByte l k) := by
  simp only [packImage, List.append_assoc]
  rw [List.getElem?_append_right (by simp; omega), List.getElem?_append_right (by simp; omega),
    List.getElem?_append_left (by simp; omega)]
  simp [h, sub_add_comm_of]

theorem packImage_flag (l : LutDescriptor) {k : Nat} (h : k < 3) : (packImage l)[150 + k]? = some (flagByte l k) := by
  simp only [packImage, List.append_assoc]
  rw [List.getElem?_append_right (by simp; omega), List.getElem?_append_right (by simp; omega),
    List.getElem?_append_right (by simp; omega), List.getElem?_append_left (by simp; omega)]
  simp [h, sub_add_comm_of]

theorem packImage_scalar (l : LutDescriptor) {k : Nat} (h : k < 5) :
    (packImage l)[153 + k]? = some (BitVec.ofNat 8 (l.scAt k)) := by
  simp only [packImage, List.append_assoc]
  rw [List.getElem?_append_right (by simp; omega), List.getElem?_append_right (by simp; omega),
    List.getElem?_append_right (by simp; omega), List.getElem?_append_right (by simp; omega)]
  simp [h, sub_add_comm_of]

theorem imageByte_of_getElem? {img : List Byte} {k : Nat} {b : Byte} (h : img[k]? = some b) : imageByte img k = b := by
  simp [imageByte, h]

/-! ### Packed bytes as numbers (R232) -/

theorem mask_toNat (b : Byte) (n : Nat) (hn : n ≤ 8) : (b &&& BitVec.ofNat 8 (2 ^ n - 1)).toNat = b.toNat % 2 ^ n := by
  have : (BitVec.ofNat 8 (2 ^ n - 1)).toNat = 2 ^ n - 1 := by interval_cases n <;> rfl
  rw [BitVec.toNat_and, this, Nat.and_two_pow_sub_one_eq_mod]

/-- Masking an operand is taking it modulo its width. -/
theorem mask_ofNat (v n : Nat) (hn : n ≤ 8) :
    BitVec.ofNat 8 v &&& BitVec.ofNat 8 (2 ^ n - 1) = BitVec.ofNat 8 (v % 2 ^ n) := by
  apply BitVec.eq_of_toNat_eq
  rw [mask_toNat _ _ hn, BitVec.toNat_ofNat, BitVec.toNat_ofNat]
  interval_cases n <;> omega

theorem phaseByte_toNat (l : LutDescriptor) (s g : Nat) :
    (phaseByte l s g).toNat =
      64 * (l.vsAt s g 0 % 4) + 16 * (l.vsAt s g 1 % 4) + 4 * (l.vsAt s g 2 % 4) + l.vsAt s g 3 % 4 := by
  have h : ∀ a b c d : Fin 4, (BitVec.ofNat 8 a <<< 6 ||| BitVec.ofNat 8 b <<< 4 ||| BitVec.ofNat 8 c <<< 2 |||
      BitVec.ofNat 8 d).toNat = 64 * a.val + 16 * b.val + 4 * c.val + d.val := by decide
  have m : ∀ v : Nat, BitVec.ofNat 8 v &&& 3#8 = BitVec.ofNat 8 (v % 4) := fun v => mask_ofNat v 2 (by decide)
  have lt : ∀ v : Nat, v % 4 < 4 := fun v => Nat.mod_lt v (by decide)
  unfold phaseByte
  rw [m, m, m, m]
  exact h ⟨_, lt _⟩ ⟨_, lt _⟩ ⟨_, lt _⟩ ⟨_, lt _⟩

theorem frameRateByte_toNat (l : LutDescriptor) (i : Nat) :
    (frameRateByte l i).toNat = 16 * (l.frAt (2 * i) % 16) + l.frAt (2 * i + 1) % 16 := by
  have h : ∀ a b : Fin 16, (BitVec.ofNat 8 a <<< 4 ||| BitVec.ofNat 8 b).toNat = 16 * a.val + b.val := by decide
  have m : ∀ v : Nat, BitVec.ofNat 8 v &&& 15#8 = BitVec.ofNat 8 (v % 16) := fun v => mask_ofNat v 4 (by decide)
  have lt : ∀ v : Nat, v % 16 < 16 := fun v => Nat.mod_lt v (by decide)
  unfold frameRateByte
  rw [m, m]
  exact h ⟨_, lt _⟩ ⟨_, lt _⟩

theorem flagByte_toNat (l : LutDescriptor) (i : Nat) :
    (flagByte l i).toNat = 128 * (l.nsAt (8 * i) % 2) + 64 * (l.nsAt (8 * i + 1) % 2) +
      32 * (l.nsAt (8 * i + 2) % 2) + 16 * (l.nsAt (8 * i + 3) % 2) + 8 * (l.nsAt (8 * i + 4) % 2) +
      4 * (l.nsAt (8 * i + 5) % 2) + 2 * (l.nsAt (8 * i + 6) % 2) + l.nsAt (8 * i + 7) % 2 := by
  have h : ∀ a b c d e f g k : Fin 2, (BitVec.ofNat 8 a <<< 7 ||| BitVec.ofNat 8 b <<< 6 ||| BitVec.ofNat 8 c <<< 5 |||
      BitVec.ofNat 8 d <<< 4 ||| BitVec.ofNat 8 e <<< 3 ||| BitVec.ofNat 8 f <<< 2 ||| BitVec.ofNat 8 g <<< 1 |||
      BitVec.ofNat 8 k <<< 0).toNat = 128 * a.val + 64 * b.val + 32 * c.val + 16 * d.val + 8 * e.val + 4 * f.val +
      2 * g.val + k.val := by decide
  have m : ∀ v : Nat, BitVec.ofNat 8 v &&& 1#8 = BitVec.ofNat 8 (v % 2) := fun v => mask_ofNat v 1 (by decide)
  have lt : ∀ v : Nat, v % 2 < 2 := fun v => Nat.mod_lt v (by decide)
  unfold flagByte flagBit
  simp only [m]
  exact h ⟨_, lt _⟩ ⟨_, lt _⟩ ⟨_, lt _⟩ ⟨_, lt _⟩ ⟨_, lt _⟩ ⟨_, lt _⟩ ⟨_, lt _⟩ ⟨_, lt _⟩

theorem getD_range_map (n : Nat) (f : Nat → Nat) {i : Nat} (h : i < n) : ((List.range n).map f).getD i 0 = f i := by
  simp [List.getD, h]

end Sys2Proof.Machine
end

