-- ==== Sys2Proof/Laws/Sequence.lean ====
section
/-! SUPPORT. The sequence interpreter: what a run of a sequence can do, and that a well-formed sequence
runs to its END. -/

namespace Sys2Proof.Machine

theorem andThen_next {o : Host.Outcome State Fault Refusal} {f : State → Host.Outcome State Fault Refusal} {t : State}
    (h : andThen o f = .next t) : ∃ s, o = .next s ∧ f s = .next t := by
  cases o with
  | next s => exact ⟨s, rfl, h⟩
  | fault r => cases h
  | refused r => cases h

theorem stepWrite_activity (c : Byte) (l : List Byte) (s : State) : Activity s (stepWrite c l s) :=
  (sendWrite_activity c l s).trans (setSp_activity _ _)

theorem stepWait_activity (s : State) : Activity s (stepWait s) :=
  (pace_waited s).activity.trans (setSp_activity _ _)

theorem stepLut_activity {s t : State} (h : stepLut s = .next t) : Activity s t := by
  unfold stepLut at h
  split at h
  · cases h
    exact (sendLut_activity _ s).trans (setSp_activity _ _)
  · cases h

/-- A run of a sequence is sequencer activity, and ends with SP 0 (R180, R184). -/
theorem runRom_activity {rom : List Byte} {fuel : Nat} {s t : State} (h : runRom rom fuel s = .next t) :
    Activity s t ∧ t.sp = 0 := by
  induction fuel generalizing s with
  | zero => cases h
  | succ fuel ih =>
    unfold runRom at h
    split at h
    · cases h
    · cases h
      exact ⟨setSp_activity 0 s, rfl⟩
    · exact ⟨(stepWrite_activity _ _ s).trans (ih h).1, (ih h).2⟩
    · exact ⟨(stepWait_activity s).trans (ih h).1, (ih h).2⟩
    · obtain ⟨u, hu, h⟩ := andThen_next h
      exact ⟨(stepLut_activity hu).trans (ih h).1, (ih h).2⟩
    · cases h

theorem runSequence_activity {q : SeqId} {s t : State} (h : runSequence q s = .next t) :
    Activity s t ∧ t.sp = 0 :=
  ⟨(setSp_activity 0 s).trans (runRom_activity h).1, (runRom_activity h).2⟩

/-! ### Completion -/

theorem stepWait_cfg (s : State) : (stepWait s).cfg = s.cfg := (stepWait_activity s).cfg
theorem stepWait_sp (s : State) : (stepWait s).sp = s.sp + 1 := rfl
theorem stepWrite_cfg (c : Byte) (l : List Byte) (s : State) : (stepWrite c l s).cfg = s.cfg :=
  (stepWrite_activity c l s).cfg
theorem stepWrite_sp (c : Byte) (l : List Byte) (s : State) : (stepWrite c l s).sp = s.sp + (3 + l.length) := rfl

theorem drop_succ_of_cons {α : Type} {l rest : List α} {n : Nat} {x : α} (h : l.drop n = x :: rest) :
    l.drop (n + 1) = rest := by
  rw [← List.tail_drop, h, List.tail_cons]

/-- A well-formed rest of a sequence runs to its END. -/
theorem runRom_completes {rom : List Byte} {k fuel : Nat} {s : State}
    (hw : romWellFormed k (rom.drop s.sp) = true) (hf : (rom.drop s.sp).length < fuel)
    (hl : romHasLut k (rom.drop s.sp) = true → s.cfg.lutCfg.isSome = true) :
    ∃ t, runRom rom fuel s = .next t := by
  induction k generalizing s fuel with
  | zero => simp [romWellFormed] at hw
  | succ k ih =>
    obtain _ | fuel := fuel
    · omega
    generalize hb : rom.drop s.sp = bytes at hw hf hl
    unfold runRom
    rw [hb]
    cases bytes with
    | nil => simp [romWellFormed] at hw
    | cons tag rest =>
      have hrest := drop_succ_of_cons hb
      simp only [romWellFormed] at hw
      simp only [romHasLut] at hl
      by_cases h0 : tag = 0x00#8
      · subst h0
        exact ⟨_, rfl⟩
      by_cases h1 : tag = 0x01#8
      · subst h1
        match rest, hrest, hw, hl, hf, hb with
        | [], _, hw, _, _, _ => simp at hw
        | [_], _, hw, _, _, _ => simp at hw
        | c :: n :: body, hrest, hw, hl, hf, hb =>
          simp only [h0, if_false, if_true, Bool.and_eq_true, decide_eq_true_eq] at hw
          simp only [h0, if_false, if_true] at hl
          have hd : decodeStep (0x01#8 :: c :: n :: body) = .ok (.write c (body.take n.toNat), body.drop n.toNat) := by
            simp [decodeStep, withOperands, hw.1]
          rw [hd]
          have hsp : rom.drop (stepWrite c (body.take n.toNat) s).sp = body.drop n.toNat := by
            have hb3 : rom.drop (s.sp + 3) = body := drop_succ_of_cons (drop_succ_of_cons hrest)
            rw [stepWrite_sp, List.length_take, Nat.min_eq_left hw.1, ← Nat.add_assoc, ← List.drop_drop, hb3]
          refine ih (by rw [hsp]; exact hw.2) ?_ (by rw [hsp, stepWrite_cfg]; exact hl)
          rw [hsp]
          simp only [List.length_cons, List.length_drop] at hf ⊢
          omega
      by_cases h2 : tag = 0x02#8
      · subst h2
        simp only [h0, h1, if_false, if_true] at hw hl
        refine ih (s := stepWait s) (by rw [stepWait_sp, hrest]; exact hw) ?_
          (by rw [stepWait_sp, hrest, stepWait_cfg]; exact hl)
        rw [stepWait_sp, hrest]
        simp only [List.length_cons] at hf
        omega
      by_cases h3 : tag = 0x03#8
      · subst h3
        simp only [h0, h1, h2, if_false, if_true] at hw hl
        obtain ⟨l, hlut⟩ := Option.isSome_iff_exists.1 (hl trivial)
        have hs : stepLut s = .next (setSp (s.sp + 1) (sendLut (packImage l) s)) := by
          unfold stepLut
          rw [hlut]
        have ha := stepLut_activity hs
        have := ih (fuel := fuel) (s := setSp (s.sp + 1) (sendLut (packImage l) s))
          (by rw [setSp_sp, hrest]; exact hw) (by rw [setSp_sp, hrest]; simp only [List.length_cons] at hf; omega)
          (fun _ => by rw [ha.cfg, hlut]; rfl)
        obtain ⟨t, ht⟩ := this
        exact ⟨t, by simpa [decodeStep, hs, andThen] using ht⟩
      · simp [h0, h1, h2, h3] at hw

/-- On a well-formed descriptor both sequences run to their END (R98, R180). -/
theorem runSequence_completes {s : State} (h : s.cfg.wellFormed = true) (q : SeqId) :
    ∃ t, runSequence q s = .next t := by
  have hq : s.cfg.sequenceOk (seqRom s.cfg q) = true := by
    simp only [Config.wellFormed, Bool.and_eq_true] at h
    cases q
    · exact h.1.1.1.1.1.1.2
    · exact h.1.1.1.1.1.2
  simp only [Config.sequenceOk, Bool.and_eq_true, Bool.or_eq_true, Bool.not_eq_true'] at hq
  refine runRom_completes (k := (seqRom s.cfg q).length) (by simpa using hq.1) (by simp) fun hl => ?_
  simp only [setSp_sp, List.drop_zero] at hl
  rcases hq.2 with hn | hn
  · rw [hl] at hn
    cases hn
  · exact hn.2

/-! ### The reset line -/

/-- Sequencer activity with the reset line left alone. -/
structure Sent (s t : State) : Prop extends Activity s t where
  rstl : t.rstl = s.rstl

theorem Sent.trans {s t u : State} (h : Sent s t) (k : Sent t u) : Sent s u :=
  ⟨h.toActivity.trans k.toActivity, k.rstl.trans h.rstl⟩

theorem sendWrite_sent (c : Byte) (l : List Byte) (s : State) : Sent s (sendWrite c l s) :=
  ⟨sendWrite_activity c l s, by rw [sendWrite_eq]⟩

theorem Waited.sent {s t : State} (h : Waited s t) : Sent s t := ⟨h.activity, h.rstl⟩

theorem setSp_sent (v : Nat) (s : State) : Sent s (setSp v s) := ⟨setSp_activity v s, rfl⟩

theorem sendLut_sent (img : List Byte) (s : State) : Sent s (sendLut img s) := by
  refine ⟨sendLut_activity img s, ?_⟩
  unfold sendLut
  split
  · rfl
  · rw [sendWrite_eq]

theorem runRom_sent {rom : List Byte} {fuel : Nat} {s t : State} (h : runRom rom fuel s = .next t) : Sent s t := by
  induction fuel generalizing s with
  | zero => cases h
  | succ fuel ih =>
    unfold runRom at h
    split at h
    · cases h
    · cases h
      exact setSp_sent 0 s
    · exact ((sendWrite_sent _ _ s).trans (setSp_sent _ _)).trans (ih h)
    · exact ((pace_waited s).sent.trans (setSp_sent _ _)).trans (ih h)
    · obtain ⟨u, hu, h⟩ := andThen_next h
      refine Sent.trans ?_ (ih h)
      unfold stepLut at hu
      split at hu
      · cases hu
        exact (sendLut_sent _ s).trans (setSp_sent _ _)
      · cases hu
    · cases h

theorem runSequence_sent {q : SeqId} {s t : State} (h : runSequence q s = .next t) : Sent s t :=
  (setSp_sent 0 s).trans (runRom_sent h)

/-- Where SP comes back to its value, only the waits' and the bus's own fields may differ. -/
theorem Sent.eq_update {s t : State} (h : Sent s t) (hsp : t.sp = s.sp) :
    t = { s with
      tmo := t.tmo, fAsleep := t.fAsleep, cs := t.cs, dc := t.dc, now := t.now, trace := t.trace
      busyIn := t.busyIn, busyTaken := t.busyTaken, slack := t.slack } := by
  obtain ⟨⟨⟨a1, a2, a3, -, -, -, -, -⟩, b1, b2, b3, b4, b5, b6, -⟩, c⟩ := h
  cases s
  cases t
  simp only at *
  subst_vars
  rfl

end Sys2Proof.Machine
end

