-- ==== Sys2Proof/Laws/Step.lean ====
section
/-! SUPPORT. Each meaning once: what it can do if it answers a next state, and that it answers one on a
well-formed descriptor. Later proofs cite these and unfold no meaning. -/

namespace Sys2Proof.Machine

/-! ### Registers outside the sequencer's activity -/

theorem setPst_effect (p : PanelState) (s : State) : Effect s (setPst p s) :=
  .of_quiet rfl rfl rfl id rfl rfl rfl rfl rfl rfl rfl

theorem countUpdate_effect (s : State) : Effect s (countUpdate s) :=
  .of_quiet rfl rfl rfl id rfl rfl rfl rfl rfl rfl rfl

theorem setResult_effect (r : ResultWord) (s : State) : Effect s (setResult r s) :=
  .of_quiet rfl rfl rfl id rfl rfl rfl rfl rfl rfl rfl

theorem setFullEvery_effect (n : Nat) (s : State) : Effect s (setFullEvery n s) := by
  unfold setFullEvery
  split
  · exact .of_quiet rfl rfl rfl id rfl rfl rfl rfl rfl rfl rfl
  · exact .refl s

/-- Writing FB and its mark. -/
theorem fbOnly_effect (m : Memory) (filled : Bool) (s : State) : Effect s { s with fb := m, fbFilled := filled } :=
  .of_quiet rfl rfl rfl id rfl rfl rfl rfl rfl rfl rfl

/-! ### The phases -/

theorem resetPulse_activity (s : State) : Activity s (resetPulse s) :=
  ((((driveLine_activity _ s).trans (delayFor_activity _ _)).trans (driveLine_activity _ _)).trans
    (delayFor_activity _ _)).trans (driveLine_activity _ _)

/-- The Initialize phase: the sequence's activity with SP 0 at its end, then PST = READY (R186). -/
theorem runInitPhase_next {s t : State} (h : runInitPhase s = .next t) :
    ∃ u, runSequence .init s = .next u ∧ Activity s u ∧ u.sp = 0 ∧ t = setPst .ready u := by
  obtain ⟨u, hu, h⟩ := andThen_next h
  cases h
  exact ⟨u, hu, (runSequence_activity hu).1, (runSequence_activity hu).2, rfl⟩

theorem runInitPhase_completes {s : State} (h : s.cfg.wellFormed = true) : ∃ t, runInitPhase s = .next t := by
  obtain ⟨u, hu⟩ := runSequence_completes h .init
  exact ⟨_, by rw [runInitPhase, hu]; rfl⟩

theorem transferWrites_activity (full : Bool) (s : State) : Activity s (transferWrites full s) := by
  unfold transferWrites
  refine Activity.trans ?_ (sendWrite_activity _ _ _)
  split
  · exact (sendPlane_activity .bw s).trans (sendPlane_activity .ac _)
  · exact sendPlane_activity .bw s

/-- The writes of Transfer & Refresh: plane 0, plane 1 on the full path of a two-plane panel, the refresh
command (R188, R187). -/
theorem transferWrites_eq (full : Bool) (s : State) : transferWrites full s = { s with
      fAsleep := s.fAsleep || decide (s.pst = .asleep)
      cs := .deasserted
      dc := if s.cfg.refresh.payload = [] then .low else .high
      trace := s.trace ++
        .c s.cfg.cmdRamBw :: (List.range (planeSize s.cfg)).map (fun k => Event.d (fbRead s k)) ++
        (if full && s.cfg.hasAccent then
          .c s.cfg.cmdRamAc :: (List.range (planeSize s.cfg)).map (fun k => Event.d (fbRead s (planeSize s.cfg + k)))
        else []) ++
        .c s.cfg.refresh.cmd :: s.cfg.refresh.payload.map .d } := by
  unfold transferWrites
  cases full && s.cfg.hasAccent <;>
    simp [sendPanelWrite, sendWrite_eq, sendPlane_eq, planeCommand, planeBase_bw, planeBase_ac,
      asleepAfterTransaction, fbRead]

theorem transferPlanes_activity (full : Bool) (s : State) : Activity s (transferPlanes full s) :=
  (transferWrites_activity full s).trans (pace_waited _).activity

theorem transferPlanes_sp (full : Bool) (s : State) : (transferPlanes full s).sp = s.sp := by
  rw [transferPlanes, (pace_waited _).sp, transferWrites_eq]

theorem runTransferRefresh_activity {full : Bool} {s t : State} (h : runTransferRefresh full s = .next t) :
    Activity s t ∧ (s.sp = 0 → t.sp = 0) := by
  unfold runTransferRefresh at h
  split at h
  · obtain ⟨u, hu, h⟩ := andThen_next h
    cases h
    obtain ⟨ha, hsp⟩ := runSequence_activity hu
    exact ⟨ha.trans (transferPlanes_activity true u), fun _ => by rw [transferPlanes_sp, hsp]⟩
  · cases h
    exact ⟨transferPlanes_activity false s, fun hsp => by rw [transferPlanes_sp, hsp]⟩

theorem runTransferRefresh_completes {s : State} (h : s.cfg.wellFormed = true) (full : Bool) :
    ∃ t, runTransferRefresh full s = .next t := by
  unfold runTransferRefresh
  split
  · obtain ⟨u, hu⟩ := runSequence_completes h .fullPre
    exact ⟨_, by rw [hu]; rfl⟩
  · exact ⟨_, rfl⟩

theorem powerDown_activity (s : State) : Activity s (powerDown s) := by
  unfold powerDown
  split
  · exact (sendWrite_activity _ _ s).trans (pace_waited _).activity
  · exact .refl s

theorem powerDown_sp (s : State) : (powerDown s).sp = s.sp := by
  unfold powerDown
  split
  · rw [(pace_waited _).sp]
    simp only [sendPanelWrite, sendWrite_eq]
  · rfl

/-- The Deep Sleep phase before PST is written (R191). -/
theorem sleepWrites_activity (s : State) : Activity s (sendPanelWrite s.cfg.sleep (powerDown s)) :=
  (powerDown_activity s).trans (sendWrite_activity _ _ _)

/-- UPDATE: Transfer & Refresh, then the counter (R193). -/
theorem execUpdate_next {s t : State} (h : execUpdate s = .next t) :
    ∃ u, runTransferRefresh (isFull s) s = .next u ∧ Activity s u ∧ t = countUpdate u := by
  obtain ⟨u, hu, h⟩ := andThen_next h
  cases h
  exact ⟨u, hu, (runTransferRefresh_activity hu).1, rfl⟩

theorem execUpdate_completes {s : State} (h : s.cfg.wellFormed = true) : ∃ t, execUpdate s = .next t := by
  obtain ⟨u, hu⟩ := runTransferRefresh_completes h (isFull s)
  exact ⟨countUpdate u, by rw [execUpdate, hu]; rfl⟩

/-- SETUP: the pulse with PST = AWAKE, then the Initialize phase (R192). -/
theorem execSetup_next {s t : State} (h : execSetup s = .next t) :
    ∃ u, Activity (runResetPhase s) u ∧ u.sp = 0 ∧ t = setPst .ready u := by
  obtain ⟨u, _, ha, hsp, ht⟩ := runInitPhase_next h
  exact ⟨u, ha, hsp, ht⟩

theorem runResetPhase_effect (s : State) : Effect s (runResetPhase s) :=
  (resetPulse_activity s).toEffect.trans (setPst_effect _ _)

theorem resetPulse_fAsleep (s : State) : (resetPulse s).fAsleep = s.fAsleep := by
  simp only [resetPulse, driveLine_fAsleep, delayFor_fAsleep]

/-- What the Reset phase leaves in the registers it does not write (R185, R192). -/
theorem runResetPhase_frame (s : State) :
    (runResetPhase s).fb = s.fb ∧ (runResetPhase s).cnt = s.cnt ∧ (runResetPhase s).thr = s.thr ∧
      (runResetPhase s).fAsleep = s.fAsleep ∧ (runResetPhase s).result = s.result ∧
      (runResetPhase s).fbFilled = s.fbFilled := by
  have h := resetPulse_activity s
  have hf := resetPulse_fAsleep s
  rw [runResetPhase]
  generalize resetPulse s = u at h hf
  exact ⟨h.fb, h.cnt, h.thr, hf, h.result, h.fbFilled⟩

theorem execSetup_completes {s : State} (h : s.cfg.wellFormed = true) : ∃ t, execSetup s = .next t :=
  runInitPhase_completes (s := runResetPhase s) (by rw [(runResetPhase_effect s).cfg]; exact h)

/-! ### The framebuffer operations -/

theorem writePixel_eq (color x y : Nat) (s : State) :
    writePixel color x y s = { s with fb := (writePixel color x y s).fb } := rfl

theorem setPixelState_eq (x y : BitVec 16) (color : Nat) {s t : State} (h : execSetPixel x y color s = .next t) :
    t = { s with fb := t.fb } := by
  cases h
  split <;> rfl

/-! ### Every operation -/

/-- No operation goes beyond `Effect`. -/
theorem exec_effect {i : Instr} {s t : State} (h : exec i s = .next t) : Effect s t := by
  cases i with
  | setup =>
    obtain ⟨u, ha, _, rfl⟩ := execSetup_next h
    exact (runResetPhase_effect s).trans (ha.toEffect.trans (setPst_effect _ u))
  | update =>
    obtain ⟨u, _, ha, rfl⟩ := execUpdate_next h
    exact ha.toEffect.trans (countUpdate_effect u)
  | shutdown => cases h; exact (sleepWrites_activity s).toEffect.trans (setPst_effect _ _)
  | setFullEvery n => cases h; exact setFullEvery_effect _ s
  | setPixel x y color => rw [setPixelState_eq x y color h]; exact fbOnly_effect _ s.fbFilled s
  | fill color => cases h; rw [fbFillPlanes_eq]; exact fbOnly_effect _ _ s
  | clear => cases h; rw [fbFillPlanes_eq]; exact fbOnly_effect _ _ s
  | getWidth => cases h; exact setResult_effect _ s
  | getHeight => cases h; exact setResult_effect _ s
  | getType => cases h; exact setResult_effect _ s
  | bufLen => cases h; exact setResult_effect _ s
  | loadLut img => cases h; exact (sendLut_activity img s).toEffect
  | alwaysFull => cases h; exact setFullEvery_effect _ s
  | hostReserved op => cases h; exact .refl s
  | seqEnd => cases h; exact (setSp_activity 0 s).toEffect
  | seqWrite c l => cases h; exact (stepWrite_activity c l s).toEffect
  | seqWait => cases h; exact (stepWait_activity s).toEffect
  | seqLut => exact (stepLut_activity h).toEffect
  | stepReserved tag => cases h
  | sendCmd b => cases h; exact (transact_activity .low b s).toEffect
  | sendData b => cases h; exact (transact_activity .high b s).toEffect
  | panelRamBw => cases h; exact (sendPlane_activity .bw s).toEffect
  | panelRamAc =>
    simp only [exec, execPanelRamAc] at h
    split at h
    · cases h; exact (sendPlane_activity .ac s).toEffect
    · cases h
  | panelRefresh => cases h; exact (sendWrite_activity _ _ s).toEffect
  | panelSleep => cases h; exact (sendWrite_activity _ _ s).toEffect
  | panelPowerOff => cases h; exact (powerDown_activity s).toEffect
  | panelLutWrite img => cases h; exact (sendLut_activity img s).toEffect
  | delay d => cases h; exact (delayFor_activity d s).toEffect
  | sampleBusy =>
    simp only [exec, execSampleBusy] at h
    split at h
    · cases h; exact (afterSample_activity s).toEffect.trans (setResult_effect _ _)
    · cases h
  | waitIdle n => cases h; exact (waitUntilIdle_waited n s).activity.toEffect.trans (setResult_effect _ _)
  | driveRst l => cases h; exact (driveLine_activity l s).toEffect
  | sendWrite c l => cases h; exact (sendWrite_activity c l s).toEffect
  | runSeq q => exact (runSequence_activity h).1.toEffect
  | resetPhase => cases h; exact runResetPhase_effect s
  | initPhase =>
    obtain ⟨u, _, ha, _, rfl⟩ := runInitPhase_next h
    exact ha.toEffect.trans (setPst_effect _ u)
  | xferPlane p =>
    simp only [exec, execXferPlane] at h
    split at h
    · cases h; exact (sendPlane_activity p s).toEffect
    · cases h
  | transferRefresh full => exact (runTransferRefresh_activity h).1.toEffect
  | deepSleepPhase => cases h; exact (sleepWrites_activity s).toEffect.trans (setPst_effect _ _)
  | packLut l => cases h; exact setResult_effect _ s
  | unpackLut img => cases h; exact setResult_effect _ s

/-! ### Registers -/

/-- What an operation without a register of its own to write leaves alone. -/
structure Kept (s t : State) : Prop where
  fb : t.fb = s.fb
  fbFilled : t.fbFilled = s.fbFilled
  cnt : t.cnt = s.cnt
  thr : t.thr = s.thr
  pst : t.pst = s.pst
  awake : s.pst ≠ .asleep → t.fAsleep = s.fAsleep

theorem Activity.kept {s t : State} (h : Activity s t) : Kept s t := ⟨h.fb, h.fbFilled, h.cnt, h.thr, h.pst, h.awake⟩

theorem setResult_kept {s t : State} (r : ResultWord) (h : Kept s t) : Kept s (setResult r t) :=
  ⟨h.fb, h.fbFilled, h.cnt, h.thr, h.pst, h.awake⟩

theorem Kept.refl (s : State) : Kept s s := ⟨rfl, rfl, rfl, rfl, rfl, fun _ => rfl⟩

/-- Operations that write none of FB, CNT, THR, PST. -/
def isQuiet : Instr → Bool
  | .setup | .update | .shutdown | .setFullEvery _ | .setPixel _ _ _ | .fill _ | .clear | .alwaysFull
  | .resetPhase | .initPhase | .deepSleepPhase => false
  | _ => true

theorem exec_kept {i : Instr} {s t : State} (h : exec i s = .next t) (hq : isQuiet i = true) : Kept s t := by
  cases i with
  | setup => cases hq
  | update => cases hq
  | shutdown => cases hq
  | setFullEvery n => cases hq
  | setPixel x y color => cases hq
  | fill color => cases hq
  | clear => cases hq
  | alwaysFull => cases hq
  | resetPhase => cases hq
  | initPhase => cases hq
  | deepSleepPhase => cases hq
  | getWidth => cases h; exact setResult_kept _ (.refl s)
  | getHeight => cases h; exact setResult_kept _ (.refl s)
  | getType => cases h; exact setResult_kept _ (.refl s)
  | bufLen => cases h; exact setResult_kept _ (.refl s)
  | loadLut img => cases h; exact (sendLut_activity img s).kept
  | hostReserved op => cases h; exact .refl s
  | seqEnd => cases h; exact (setSp_activity 0 s).kept
  | seqWrite c l => cases h; exact (stepWrite_activity c l s).kept
  | seqWait => cases h; exact (stepWait_activity s).kept
  | seqLut => exact (stepLut_activity h).kept
  | stepReserved tag => cases h
  | sendCmd b => cases h; exact (transact_activity .low b s).kept
  | sendData b => cases h; exact (transact_activity .high b s).kept
  | panelRamBw => cases h; exact (sendPlane_activity .bw s).kept
  | panelRamAc =>
    simp only [exec, execPanelRamAc] at h
    split at h
    · cases h; exact (sendPlane_activity .ac s).kept
    · cases h
  | panelRefresh => cases h; exact (sendWrite_activity _ _ s).kept
  | panelSleep => cases h; exact (sendWrite_activity _ _ s).kept
  | panelPowerOff => cases h; exact (powerDown_activity s).kept
  | panelLutWrite img => cases h; exact (sendLut_activity img s).kept
  | delay d => cases h; exact (delayFor_activity d s).kept
  | sampleBusy =>
    simp only [exec, execSampleBusy] at h
    split at h
    · cases h; exact setResult_kept _ (afterSample_activity s).kept
    · cases h
  | waitIdle n => cases h; exact setResult_kept _ (waitUntilIdle_waited n s).activity.kept
  | driveRst l => cases h; exact (driveLine_activity l s).kept
  | sendWrite c l => cases h; exact (sendWrite_activity c l s).kept
  | runSeq q => exact (runSequence_activity h).1.kept
  | xferPlane p =>
    simp only [exec, execXferPlane] at h
    split at h
    · cases h; exact (sendPlane_activity p s).kept
    · cases h
  | transferRefresh full => exact (runTransferRefresh_activity h).1.kept
  | packLut l => cases h; exact setResult_kept _ (.refl s)
  | unpackLut img => cases h; exact setResult_kept _ (.refl s)

/-! ### The step -/

/-- The operations the host port can deliver: decoding answers no other. -/
theorem decodeHost_format {n : Nat} {bs rest : List Byte} {i : Instr} (h : decodeHost n bs = .ok (i, rest)) :
    i.format = .host := by
  unfold decodeHost at h
  split at h
  · cases h
  · split at h <;> first
      | (cases h; rfl)
      | (unfold withOperands at h; split at h <;> cases h; rfl)

/-- No host operation stops on a well-formed descriptor (R260). -/
theorem exec_host_completes {i : Instr} {s : State} (hf : i.format = .host) (hc : s.cfg.wellFormed = true) :
    ∃ t, exec i s = .next t := by
  cases i
  case setup => exact execSetup_completes hc
  case update => exact execUpdate_completes hc
  all_goals first
    | (simp [Instr.format] at hf; done)
    | exact ⟨_, rfl⟩

/-- A step is idle, or takes one host command and performs it. -/
theorem step_next {s t : State} (h : step s = .next t) :
    s.cfg.wellFormed = true ∧
      ((fetch s = none ∧ t = s) ∨
        ∃ i rest, decodeHost s.cfg.colorBits s.hostIn = .ok (i, rest) ∧ i.format = .host ∧
          exec i (accept rest s) = .next t) := by
  unfold step at h
  split at h
  · refine ⟨‹_›, ?_⟩
    split at h
    · rename_i i rest hfetch
      unfold fetch at hfetch
      split at hfetch
      · cases hfetch
        exact .inr ⟨i, rest, ‹_›, decodeHost_format ‹_›, h⟩
      · cases hfetch
    · rename_i hfetch
      cases h
      exact .inl ⟨hfetch, rfl⟩
  · cases h

end Sys2Proof.Machine
end

