-- ==== Sys2Proof/Laws/Path.lean ====
section
/-! SUPPORT. The relation of R201, alike in all but the waits: it is an equivalence, a wait stays inside it,
and the primitive updates keep it. -/

namespace Sys2Proof.Machine

theorem SamePath.refl (s : State) : SamePath s s :=
  ⟨rfl, rfl, rfl, rfl, rfl, rfl, rfl, rfl, rfl, rfl, rfl, rfl, rfl, rfl, rfl⟩

theorem SamePath.symm {s t : State} (h : SamePath s t) : SamePath t s :=
  ⟨h.1.symm, h.2.symm, h.3.symm, h.4.symm, h.5.symm, h.6.symm, h.7.symm, h.8.symm,
    h.9.symm, h.10.symm, h.11.symm, h.12.symm, h.13.symm, h.14.symm, h.15.symm⟩

theorem SamePath.trans {s t u : State} (h : SamePath s t) (k : SamePath t u) : SamePath s u :=
  ⟨k.1.trans h.1, k.2.trans h.2, k.3.trans h.3, k.4.trans h.4, k.5.trans h.5, k.6.trans h.6, k.7.trans h.7,
    k.8.trans h.8, k.9.trans h.9, k.10.trans h.10, k.11.trans h.11, k.12.trans h.12,
    k.13.trans h.13, k.14.trans h.14, k.15.trans h.15⟩

theorem Waited.samePath {s t : State} (h : Waited s t) (hh : t.hostIn = s.hostIn) : SamePath s t where
  cfg := h.activity.cfg
  fb := h.activity.fb
  fbInit := h.activity.fbInit
  cnt := h.activity.cnt
  thr := h.activity.thr
  pst := h.activity.pst
  fAsleep := h.fAsleep
  cs := h.cs
  dc := h.dc
  rstl := h.rstl
  sp := h.sp
  hostIn := hh
  result := h.activity.result
  driven := by
    obtain ⟨w, hw, hd⟩ := h.events
    rw [hw, drivenEvents_append]
    have : drivenEvents w = [] := by
      unfold drivenEvents
      rw [List.filter_eq_nil_iff]
      intro e he
      simpa using List.all_eq_true.1 hd e he
    rw [this, List.append_nil]
  fbFilled := h.activity.fbFilled

theorem pace_same {s s' : State} (h : SamePath s s') : SamePath (pace s) (pace s') :=
  (((pace_waited s).samePath (pace_waited s).activity.hostIn).symm.trans h).trans
    ((pace_waited s').samePath (pace_waited s').activity.hostIn)

theorem sendWrite_same (c : Byte) (l : List Byte) {s s' : State} (h : SamePath s s') :
    SamePath (sendWrite c l s) (sendWrite c l s') := by
  rw [sendWrite_eq, sendWrite_eq]
  exact ⟨h.1, h.2, h.3, h.4, h.5, h.6, by simp [asleepAfterTransaction, h.fAsleep, h.pst], rfl, rfl, h.10, h.11, h.12,
    h.13, by simp only [drivenEvents_append, h.driven], h.15⟩

theorem setSp_same (v : Nat) {s s' : State} (h : SamePath s s') : SamePath (setSp v s) (setSp v s') :=
  ⟨h.1, h.2, h.3, h.4, h.5, h.6, h.7, h.8, h.9, h.10, rfl, h.12, h.13, h.14, h.15⟩

theorem markFilled_same {s s' : State} (h : SamePath s s') : SamePath (markFilled s) (markFilled s') :=
  ⟨h.1, h.2, h.3, h.4, h.5, h.6, h.7, h.8, h.9, h.10, h.11, h.12, h.13, h.14, rfl⟩

theorem setPst_same (v : PanelState) {s s' : State} (h : SamePath s s') : SamePath (setPst v s) (setPst v s') :=
  ⟨h.1, h.2, h.3, h.4, h.5, rfl, h.7, h.8, h.9, h.10, h.11, h.12, h.13, h.14, h.15⟩

theorem countUpdate_same {s s' : State} (h : SamePath s s') : SamePath (countUpdate s) (countUpdate s') :=
  ⟨h.1, h.2, h.3, by simp [countUpdate, nextCount, h.cfg, h.cnt, h.thr], h.5, h.6, h.7, h.8, h.9, h.10, h.11,
    h.12, h.13, h.14, h.15⟩

theorem setResult_same (r : ResultWord) {s s' : State} (h : SamePath s s') : SamePath (setResult r s) (setResult r s') :=
  ⟨h.1, h.2, h.3, h.4, h.5, h.6, h.7, h.8, h.9, h.10, h.11, h.12, rfl, h.14, h.15⟩

theorem delayFor_same (d d' : Nat) {s s' : State} (h : SamePath s s') : SamePath (delayFor d s) (delayFor d' s') :=
  ⟨h.1, h.2, h.3, h.4, h.5, h.6, h.7, h.8, h.9, h.10, h.11, h.12, h.13, by
    simp only [delayFor_trace, drivenEvents_append, h.driven]; rfl, h.15⟩

theorem driveLine_same (l : Level) {s s' : State} (h : SamePath s s') : SamePath (driveLine l s) (driveLine l s') :=
  ⟨h.1, h.2, h.3, h.4, h.5, h.6, h.7, h.8, h.9, rfl, h.11, h.12, h.13, by
    simp only [driveLine_trace, drivenEvents_append, h.driven], h.15⟩

theorem resetPulse_same {s s' : State} (h : SamePath s s') : SamePath (resetPulse s) (resetPulse s') := by
  unfold resetPulse
  rw [h.cfg]
  exact driveLine_same _ (delayFor_same _ _ (driveLine_same _ (delayFor_same _ _ (driveLine_same _ h))))

theorem sendLut_same (i : List Byte) {s s' : State} (h : SamePath s s') : SamePath (sendLut i s) (sendLut i s') := by
  unfold sendLut
  rw [h.cfg]
  split
  · exact h
  · exact sendWrite_same _ _ h

theorem stepWrite_same (c : Byte) (l : List Byte) {s s' : State} (h : SamePath s s') :
    SamePath (stepWrite c l s) (stepWrite c l s') := by
  unfold stepWrite
  rw [h.sp]
  exact setSp_same _ (sendWrite_same _ _ h)

theorem stepWait_same {s s' : State} (h : SamePath s s') : SamePath (stepWait s) (stepWait s') := by
  unfold stepWait
  rw [h.sp]
  exact setSp_same _ (pace_same h)

theorem sendPlane_same (p : Plane) {s s' : State} (h : SamePath s s') : SamePath (sendPlane p s) (sendPlane p s') := by
  unfold sendPlane planeBytes fbRead
  rw [h.cfg, h.fb, h.fbInit]
  exact sendWrite_same _ _ h

end Sys2Proof.Machine
end

