-- ==== Sys2Proof/Laws/PerInstr.lean ====
section
/-! SUPPORT. Per-operation facts about the encoding: its format and its leading byte or mode bit, as
spec/opcode_table.json gives them. -/

namespace Sys2Proof.Laws.Opcode

open Sys2Proof

/-- The table's opcode or tag byte of an operation that has one (R93, R94, R98, R99, R103). -/
def leadingByte : Instr → Option Byte
  | .setup => some 0x01#8
  | .update => some 0x02#8
  | .shutdown => some 0x03#8
  | .setFullEvery _ => some 0x04#8
  | .setPixel _ _ _ => some 0x05#8
  | .fill _ => some 0x06#8
  | .clear => some 0x07#8
  | .getWidth => some 0x08#8
  | .getHeight => some 0x09#8
  | .getType => some 0x0A#8
  | .bufLen => some 0x0B#8
  | .loadLut _ => some 0x0C#8
  | .alwaysFull => some 0x04#8
  | .hostReserved opcode => some opcode
  | .seqEnd => some 0x00#8
  | .seqWrite _ _ => some 0x01#8
  | .seqWait => some 0x02#8
  | .seqLut => some 0x03#8
  | .stepReserved tag => some tag
  | .sendCmd _ => none
  | .sendData _ => none
  | .panelRamBw => none
  | .panelRamAc => none
  | .panelRefresh => none
  | .panelSleep => none
  | .panelPowerOff => none
  | .panelLutWrite _ => none
  | .delay _ => none
  | .sampleBusy => none
  | .waitIdle _ => none
  | .driveRst _ => none
  | .sendWrite _ _ => none
  | .runSeq _ => none
  | .resetPhase => none
  | .initPhase => none
  | .xferPlane _ => none
  | .transferRefresh _ => none
  | .deepSleepPhase => none
  | .packLut _ => none
  | .unpackLut _ => none

/-- The encoding of an operation has the operation's own format; a word begins with the table's byte; a bus
frame has its mode bit set for SENDDATA alone; what has no encoding is of format MICRO or a panel command
whose descriptor field is absent (R90, R91, R95). -/
def Statement (i : Instr) : Prop :=
  ∀ c : Config,
    match encode c i with
    | .host bytes => i.format = .host ∧ bytes.head? = leadingByte i
    | .step bytes => i.format = .step ∧ bytes.head? = leadingByte i
    | .bus frame => i.format = .bus ∧ (frame.getLsbD 8 = true ↔ ∃ b, i = .sendData b)
    | .unencoded => i.format = .micro ∨ (i = .panelPowerOff ∧ c.powerOff = none) ∨
        (i.format = .bus ∧ c.cmdLut = none)

theorem commandFrame_mode (b : Byte) : (busFrame .low b).getLsbD 8 = false := by
  revert b
  decide

theorem dataFrame_mode (b : Byte) : (busFrame .high b).getLsbD 8 = true := by
  revert b
  decide

theorem setup : Statement .setup := fun _ => ⟨rfl, rfl⟩

theorem update : Statement .update := fun _ => ⟨rfl, rfl⟩

theorem shutdown : Statement .shutdown := fun _ => ⟨rfl, rfl⟩

theorem setFullEvery (n : BitVec 32) : Statement (.setFullEvery n) := fun _ => ⟨rfl, rfl⟩

theorem setPixel (x y : BitVec 16) (color : Nat) : Statement (.setPixel x y color) := fun _ => ⟨rfl, rfl⟩

theorem fill (color : Nat) : Statement (.fill color) := fun _ => ⟨rfl, rfl⟩

theorem clear : Statement .clear := fun _ => ⟨rfl, rfl⟩

theorem getWidth : Statement .getWidth := fun _ => ⟨rfl, rfl⟩

theorem getHeight : Statement .getHeight := fun _ => ⟨rfl, rfl⟩

theorem getType : Statement .getType := fun _ => ⟨rfl, rfl⟩

theorem bufLen : Statement .bufLen := fun _ => ⟨rfl, rfl⟩

theorem loadLut (image : List Byte) : Statement (.loadLut image) := fun _ => ⟨rfl, rfl⟩

theorem alwaysFull : Statement .alwaysFull := fun _ => ⟨rfl, rfl⟩

theorem hostReserved (opcode : Byte) : Statement (.hostReserved opcode) := fun _ => ⟨rfl, rfl⟩

theorem seqEnd : Statement .seqEnd := fun _ => ⟨rfl, rfl⟩

theorem seqWrite (c : Byte) (payload : List Byte) : Statement (.seqWrite c payload) := fun _ => ⟨rfl, rfl⟩

theorem seqWait : Statement .seqWait := fun _ => ⟨rfl, rfl⟩

theorem seqLut : Statement .seqLut := fun _ => ⟨rfl, rfl⟩

theorem stepReserved (tag : Byte) : Statement (.stepReserved tag) := fun _ => ⟨rfl, rfl⟩

theorem sendCmd (b : Byte) : Statement (.sendCmd b) := fun _ => ⟨rfl, by rw [commandFrame_mode]; simp⟩

theorem sendData (b : Byte) : Statement (.sendData b) := fun _ => ⟨rfl, by rw [dataFrame_mode]; simp⟩

theorem panelRamBw : Statement .panelRamBw := fun _ => ⟨rfl, by rw [commandFrame_mode]; simp⟩

theorem panelRamAc : Statement .panelRamAc := fun _ => ⟨rfl, by rw [commandFrame_mode]; simp⟩

theorem panelRefresh : Statement .panelRefresh := fun _ => ⟨rfl, by rw [commandFrame_mode]; simp⟩

theorem panelSleep : Statement .panelSleep := fun _ => ⟨rfl, by rw [commandFrame_mode]; simp⟩

theorem panelPowerOff : Statement .panelPowerOff := by
  intro c
  unfold encode
  cases c.powerOff with
  | none => exact .inr (.inl ⟨rfl, rfl⟩)
  | some w => exact ⟨rfl, by rw [commandFrame_mode]; simp⟩

theorem panelLutWrite (image : List Byte) : Statement (.panelLutWrite image) := by
  intro c
  unfold encode
  cases c.cmdLut with
  | none => exact .inr (.inr ⟨rfl, rfl⟩)
  | some b => exact ⟨rfl, by rw [commandFrame_mode]; simp⟩

theorem delay (d : Nat) : Statement (.delay d) := fun _ => .inl rfl

theorem sampleBusy : Statement .sampleBusy := fun _ => .inl rfl

theorem waitIdle (t : Nat) : Statement (.waitIdle t) := fun _ => .inl rfl

theorem driveRst (l : Level) : Statement (.driveRst l) := fun _ => .inl rfl

theorem sendWrite (c : Byte) (payload : List Byte) : Statement (.sendWrite c payload) := fun _ => .inl rfl

theorem runSeq (q : SeqId) : Statement (.runSeq q) := fun _ => .inl rfl

theorem resetPhase : Statement .resetPhase := fun _ => .inl rfl

theorem initPhase : Statement .initPhase := fun _ => .inl rfl

theorem xferPlane (p : Plane) : Statement (.xferPlane p) := fun _ => .inl rfl

theorem transferRefresh (full : Bool) : Statement (.transferRefresh full) := fun _ => .inl rfl

theorem deepSleepPhase : Statement .deepSleepPhase := fun _ => .inl rfl

theorem packLut (l : LutDescriptor) : Statement (.packLut l) := fun _ => .inl rfl

theorem unpackLut (image : List Byte) : Statement (.unpackLut image) := fun _ => .inl rfl

end Sys2Proof.Laws.Opcode
end

