-- ==== Sys2Proof/Tests/Slice0.lean ====
section
/-! SUPPORT. Tests with results from outside the model: the vectors of 95_test_vectors.md, part and row
named at each test; the smoke tests of WellFormed; and a witness for every statement with hypotheses. -/

namespace Sys2Proof.Tests

open Sys2Proof Sys2Proof.Machine

set_option Elab.async false

/-! ### Fixtures (95_test_vectors.md part 0) -/

/-- LUT_A (part 2.8). -/
def lutA : LutDescriptor where
  vs := ([(0, 1), (1, 2), (3, 3), (48, 2), (49, 1), (118, 1), (119, 2), (236, 3), (237, 3), (238, 3), (239, 3)] :
    List (Nat × Nat)).foldl (fun l p => l.set p.1 p.2) (List.replicate 240 0)
  t := [0x0A, 0x14, 0x00, 0x1E, 0x28, 0x00, 0x02] ++ List.replicate 70 0 ++ [1, 2, 3, 4, 5, 6, 7]
  fr := [2, 3] ++ List.replicate 9 0 ++ [15]
  ns := ([(0, 1), (9, 1), (23, 1)] : List (Nat × Nat)).foldl (fun l p => l.set p.1 p.2) (List.replicate 24 0)
  sc := [0x22, 0x17, 0x41, 0xA8, 0x32]

/-- The 158 bytes of LUT_A's image, as the table of part 2.8 gives them. -/
def imageA : List Byte :=
  [0x63#8] ++ List.replicate 11 0x00#8 ++ [0x90#8] ++ List.replicate 16 0x00#8 ++ [0x06#8] ++
    List.replicate 29 0x00#8 ++ [0xFF#8, 0x0A#8, 0x14#8, 0x00#8, 0x1E#8, 0x28#8, 0x00#8, 0x02#8] ++
    List.replicate 70 0x00#8 ++ [0x01#8, 0x02#8, 0x03#8, 0x04#8, 0x05#8, 0x06#8, 0x07#8, 0x23#8] ++
    List.replicate 4 0x00#8 ++ [0x0F#8, 0x80#8, 0x40#8, 0x01#8, 0x22#8, 0x17#8, 0x41#8, 0xA8#8, 0x32#8]

/-- The image of LUT_B. -/
def imageB : List Byte := 0x63#8 :: List.replicate 157 0x00#8

/-- Fixture T1. -/
def fixtureT1 : Config :=
  { Config.reference with
    width := 128, height := 296, hasAccent := true, thrInit := 5, busyActive := .high, idleTimeoutMs := 5000
    rstT1Ms := 20, rstT2Ms := 2, nobusyDelayMs := 3000
    initRom := [0x01#8, 0xA1#8, 0x02#8, 0x11#8, 0x22#8, 0x02#8, 0x01#8, 0xA2#8, 0x00#8, 0x00#8]
    fullPreRom := [0x00#8], powerOff := none, sleep := ⟨0x10#8, [0x01#8]⟩ }

/-- Fixture T2 is the descriptor of `State.reset`. -/
def fixtureT2 : Config := Config.reference

/-- Fixture T3. -/
def fixtureT3 : Config :=
  { Config.reference with
    width := 8, height := 1, counterBased := false, thrInit := 1, busyActive := .high, idleTimeoutMs := 1000
    rstT1Ms := 200, rstT2Ms := 2, fgBit := true, idle0 := 0x00#8
    initRom := [0x03#8, 0x01#8, 0xA4#8, 0x01#8, 0x01#8, 0x00#8], fullPreRom := [0x00#8]
    powerOff := none, sleep := ⟨0x10#8, [0x01#8]⟩, cmdLut := some 0xC3#8, hasBusyPin := false
    rstOverrideMs := some 7, lutCfg := some lutA }

/-- T1's two planes on an 8 by 2 panel. -/
def fixtureTwoPlanes : Config := { fixtureT1 with width := 8, height := 2 }

/-- An EPDC just constructed with descriptor `c`, its FB at power-on holding `fb`, both lines low, and the
next samples of the busy pin `busy`. -/
def start (c : Config) (fb : List Byte) (busy : List Level) : State :=
  { State.afterConstruction c with fbInit := fb, busyIn := busy, dc := .low, rstl := .low }

/-- The trace of the next state. -/
def traceOf (o : Host.Outcome State Fault Refusal) : Option (List Event) := (nextState o).map (·.trace)

/-- The first `n` bytes of FB in the next state. -/
def fbOf (n : Nat) (o : Host.Outcome State Fault Refusal) : Option (List Byte) :=
  (nextState o).map fun s => (List.range n).map (fbRead s)

/-! ### WellFormed: one ill-formed term for each check -/

theorem test_wellFormed_accepts_fixtures :
    fixtureT1.wellFormed = true ∧ fixtureT2.wellFormed = true ∧ fixtureT3.wellFormed = true := by decide +kernel

/-- R11 (a), (b), (d), (e). -/
theorem test_wellFormed_refuses_descriptors :
    ({ fixtureT2 with width := 0 } : Config).wellFormed = false ∧
    ({ fixtureT2 with height := 0 } : Config).wellFormed = false ∧
    ({ fixtureT2 with width := 32768 } : Config).wellFormed = false ∧
    ({ fixtureT2 with height := 32768 } : Config).wellFormed = false ∧
    ({ fixtureT2 with thrInit := 0 } : Config).wellFormed = false ∧
    ({ fixtureT2 with refresh := ⟨0#8, List.replicate 256 0#8⟩ } : Config).wellFormed = false ∧
    ({ fixtureT2 with powerOff := some ⟨0#8, List.replicate 256 0#8⟩ } : Config).wellFormed = false ∧
    ({ fixtureT2 with sleep := ⟨0#8, List.replicate 256 0#8⟩ } : Config).wellFormed = false ∧
    ({ fixtureT2 with pollMs := 0 } : Config).wellFormed = false ∧
    ({ fixtureT3 with lutCfg := some { lutA with vs := [] } } : Config).wellFormed = false := by decide +kernel

/-- R98 and R11 (c); the three images are those of part 2.9. -/
theorem test_wellFormed_refuses_sequences :
    ({ fixtureT2 with initRom := [0x01#8, 0xA1#8, 0x05#8, 0x11#8, 0x00#8] } : Config).wellFormed = false ∧
    ({ fixtureT2 with initRom := [0x04#8, 0x00#8] } : Config).wellFormed = false ∧
    ({ fixtureT2 with fullPreRom := [0x01#8, 0xA1#8, 0x00#8] } : Config).wellFormed = false ∧
    ({ fixtureT2 with fullPreRom := [] } : Config).wellFormed = false ∧
    ({ fixtureT3 with cmdLut := none } : Config).wellFormed = false ∧
    ({ fixtureT3 with lutCfg := none } : Config).wellFormed = false := by decide +kernel

theorem test_wellFormed_refuses_operands :
    (Instr.setPixel 0#16 0#16 256).wellFormed fixtureT2 = false ∧
    (Instr.fill 256).wellFormed fixtureT2 = false ∧
    (Instr.loadLut (List.replicate 157 0#8)).wellFormed fixtureT2 = false ∧
    (Instr.hostReserved 0x0C#8).wellFormed fixtureT2 = false ∧
    (Instr.hostReserved 0x01#8).wellFormed fixtureT2 = false ∧
    (Instr.seqWrite 0#8 (List.replicate 256 0#8)).wellFormed fixtureT2 = false ∧
    (Instr.stepReserved 0x03#8).wellFormed fixtureT2 = false ∧
    (Instr.panelLutWrite []).wellFormed fixtureT2 = false ∧
    (Instr.packLut { lutA with ns := [] }).wellFormed fixtureT2 = false ∧
    (Instr.unpackLut (List.replicate 159 0#8)).wellFormed fixtureT2 = false := by decide +kernel

/-! ### Decoding: the words of part 2.9 and part 2.1 -/

theorem test_decode_host_words :
    decodeHost 8 [0x01#8] = .ok (.setup, []) ∧ decodeHost 8 [0x02#8] = .ok (.update, []) ∧
    decodeHost 8 [0x03#8] = .ok (.shutdown, []) ∧ decodeHost 8 [0x07#8] = .ok (.clear, []) ∧
    decodeHost 8 [0x08#8] = .ok (.getWidth, []) ∧ decodeHost 8 [0x09#8] = .ok (.getHeight, []) ∧
    decodeHost 8 [0x0A#8] = .ok (.getType, []) ∧ decodeHost 8 [0x0B#8] = .ok (.bufLen, []) := by decide +kernel

theorem test_decode_host_operands :
    decodeHost 8 [0x04#8, 0#8, 0#8, 0#8, 0x03#8] = .ok (.setFullEvery 3#32, []) ∧
    decodeHost 8 [0x05#8, 0x00#8, 0x7F#8, 0x01#8, 0x27#8, 0x02#8] = .ok (.setPixel 127#16 295#16 2, []) ∧
    decodeHost 8 [0x05#8, 0xFF#8, 0xFF#8, 0#8, 0#8, 0#8] = .ok (.setPixel (BitVec.ofInt 16 (-1)) 0#16 0, []) ∧
    decodeHost 8 [0x06#8, 0x01#8] = .ok (.fill 1, []) ∧
    decodeHost 8 (0x0C#8 :: imageB) = .ok (.loadLut imageB, []) ∧
    decodeHost 8 [0x00#8] = .ok (.hostReserved 0x00#8, []) ∧
    decodeHost 8 [0x0D#8] = .ok (.hostReserved 0x0D#8, []) ∧
    decodeHost 8 [0xFF#8] = .ok (.hostReserved 0xFF#8, []) := by decide +kernel

/-- ALWAYSFULL's word is SETFULLEVERY 1's, and decodes to it (part 2.9). -/
theorem test_decode_alwaysFull :
    encodeHost 8 .alwaysFull = some [0x04#8, 0#8, 0#8, 0#8, 0x01#8] ∧
    decodeHost 8 [0x04#8, 0#8, 0#8, 0#8, 0x01#8] = .ok (.setFullEvery 1#32, []) := by decide +kernel

theorem test_decode_step_words :
    decodeStep [0x00#8] = .ok (.stop, []) ∧
    decodeStep [0x01#8, 0x24#8, 0x00#8, 0x00#8] = .ok (.write 0x24#8 [], [0x00#8]) ∧
    decodeStep [0x01#8, 0xA1#8, 0x02#8, 0x11#8, 0x22#8] = .ok (.write 0xA1#8 [0x11#8, 0x22#8], []) ∧
    decodeStep [0x02#8] = .ok (.wait, []) ∧ decodeStep [0x03#8] = .ok (.lut, []) ∧
    decodeStep [0x04#8, 0x00#8] = .ok (.reserved 0x04#8, [0x00#8]) := by decide +kernel

/-- The frames of part 2.1; a panel command's frame is the command frame of its field (R95). -/
theorem test_decode_bus_frames :
    decodeBus 0b000100100#9 = .sendCmd 0x24#8 ∧ decodeBus 0b100100100#9 = .sendData 0x24#8 ∧
    decodeBus 0b111111011#9 = .sendData 0xFB#8 ∧ decodeBus 0b110000000#9 = .sendData 0x80#8 ∧
    encode fixtureT1 .panelRamBw = .bus 0b000100100#9 ∧ encode fixtureT1 .panelRamAc = .bus 0b000100110#9 ∧
    encode fixtureT1 .panelRefresh = .bus 0b000010010#9 ∧ encode fixtureT1 .panelSleep = .bus 0b000010000#9 ∧
    encode fixtureT2 .panelPowerOff = .bus 0b010110010#9 ∧
    encode fixtureT3 (.panelLutWrite imageB) = .bus 0b011000011#9 := by decide +kernel

/-- The ROM image of part 2.9. -/
theorem test_encode_sequence :
    encodeSeq [.write 0xA1#8 [0x11#8, 0x22#8], .wait, .write 0xA2#8 []] = fixtureT1.initRom ∧
    encodeSeq [.wait, .wait] = [0x02#8, 0x02#8, 0x00#8] := by decide +kernel

/-- The host's reading of table words (log 17): a host word, one with operands, a bus frame. -/
theorem test_decode_table_words :
    decodeTableWord 8 0x07 = some .clear ∧ decodeTableWord 40 0x0100000004 = some (.setFullEvery 1#32) ∧
    decodeTableWord 16 0x0124 = some (.sendData 0x24#8) := by decide +kernel

/-! ### The bus, time and the pins (parts 2.1 to 2.3) -/

theorem test_sendCmd :
    (nextState (exec (.sendCmd 0x24#8) (start fixtureT1 [] []))).map (fun s => (s.trace, s.dc, s.cs)) =
      some ([.c 0x24#8], .low, .deasserted) := by decide +kernel

theorem test_sendData :
    (nextState (exec (.sendData 0x24#8) (start fixtureT1 [] []))).map (fun s => (s.trace, s.dc, s.cs)) =
      some ([.d 0x24#8], .high, .deasserted) := by decide +kernel

/-- One bit and its clock pulse under D2: the clock rises from low, and falls back. -/
def pulse (bit : Bool) : List LineStep := [.data bit, .clock .high, .clock .low]

/-- Part 2.1: two select pulses, sixteen clock pulses, most significant bit first. -/
theorem test_sendWrite_lines :
    (traceOf (exec (.sendWrite 0x10#8 [0x01#8]) (start fixtureT1 [] []))).map traceLineSteps = some (
      [.select .low, .mode .low] ++ [false, false, false, true, false, false, false, false].flatMap pulse ++
      [.select .high, .select .low, .mode .high] ++
      [false, false, false, false, false, false, false, true].flatMap pulse ++ [.select .high]) := by
  decide +kernel

/-- R91, D2: the rising edges sample, the falling ones do not; the bits are those of part 2.1's `D(FB)`. -/
theorem test_sampledBits :
    sampledBits .low true (frameLineSteps .high 0xFB#8) = [true, true, true, true, true, false, true, true] := by
  decide +kernel

theorem test_sendWrite_empty : traceOf (exec (.sendWrite 0xA2#8 []) (start fixtureT1 [] [])) = some [.c 0xA2#8] := by
  decide +kernel

theorem test_delay :
    (nextState (exec (.delay 200) (start fixtureT1 [] []))).map (fun s => (s.trace, s.now)) =
      some ([.dly 200], 200) := by decide +kernel

theorem test_driveRst :
    (nextState (exec (.driveRst .low) (start fixtureT1 [] []))).map (fun s => (s.trace, s.rstl)) =
      some ([.rst .low], .low) := by decide +kernel

theorem test_sampleBusy :
    (nextState (exec .sampleBusy (start fixtureT1 [] [.high]))).map (fun s => (s.trace, s.result)) =
      some ([.poll .high], some (.level .high)) := by decide +kernel

/-- Part 2.3 row 4: idle exactly at the deadline. -/
theorem test_waitIdle_deadline :
    (nextState (exec (.waitIdle 30) (start fixtureT1 [] [.high, .high, .high, .low]))).map
        (fun s => (s.trace, s.now, s.tmo, s.result)) =
      some ([.poll .high, .dly 10, .poll .high, .dly 10, .poll .high, .dly 10, .poll .low], 30, false,
        some (.wait .ok)) := by decide +kernel

/-- Part 2.3 row 5: busy for ever, T = 25. -/
theorem test_waitIdle_timeout :
    (nextState (exec (.waitIdle 25) (start fixtureT1 [] [.high, .high, .high, .high]))).map
        (fun s => (s.trace, s.now, s.tmo, s.result)) =
      some ([.poll .high, .dly 10, .poll .high, .dly 10, .poll .high, .dly 10, .poll .high], 30, true,
        some (.wait .fail)) := by decide +kernel

/-! ### Panel commands (R95, part 2.10) -/

theorem test_panelRamBw :
    traceOf (exec .panelRamBw (start fixtureT2 [0xFF#8, 0xC0#8, 0xFF#8, 0xC0#8] [])) =
      some [.c 0x24#8, .d 0xFF#8, .d 0xC0#8, .d 0xFF#8, .d 0xC0#8] := by decide +kernel

theorem test_panelRamAc :
    traceOf (exec .panelRamAc (start fixtureTwoPlanes [0x01#8, 0x02#8, 0x03#8, 0x04#8] [])) =
      some [.c 0x26#8, .d 0x03#8, .d 0x04#8] := by decide +kernel

theorem test_panelRefresh : traceOf (exec .panelRefresh (start fixtureT1 [] [])) = some [.c 0x12#8] := by
  decide +kernel

theorem test_panelSleep : traceOf (exec .panelSleep (start fixtureT1 [] [])) = some [.c 0x10#8, .d 0x01#8] := by
  decide +kernel

theorem test_panelPowerOff :
    traceOf (exec .panelPowerOff (start fixtureT2 [] [.high])) = some [.c 0xB2#8, .poll .high] ∧
    traceOf (exec .panelPowerOff (start fixtureT1 [] [])) = some [] := by decide +kernel

theorem test_panelLutWrite :
    traceOf (exec (.panelLutWrite imageB) (start fixtureT3 [] [])) = some (.c 0xC3#8 :: imageB.map .d) := by
  decide +kernel

theorem test_xferPlane :
    traceOf (exec (.xferPlane .ac) (start fixtureTwoPlanes [0x01#8, 0x02#8, 0x03#8, 0x04#8] [])) =
      some [.c 0x26#8, .d 0x03#8, .d 0x04#8] := by decide +kernel

/-! ### Sequences (parts 2.8 and 2.9) -/

theorem test_seqWrite :
    (nextState (exec (.seqWrite 0xA1#8 [0x11#8, 0x22#8]) (start fixtureT1 [] []))).map (fun s => (s.trace, s.sp)) =
      some ([.c 0xA1#8, .d 0x11#8, .d 0x22#8], 5) := by decide +kernel

theorem test_seqWait :
    (nextState (exec .seqWait { start fixtureT1 [] [.low] with sp := 5 })).map (fun s => (s.trace, s.sp, s.result)) =
      some ([.poll .low], 6, none) := by decide +kernel

theorem test_seqLut :
    (nextState (exec .seqLut (start fixtureT3 [] []))).map (fun s => (s.trace, s.sp)) =
      some (.c 0xC3#8 :: imageA.map .d, 1) := by decide +kernel

theorem test_seqEnd : (nextState (exec .seqEnd { start fixtureT1 [] [] with sp := 9 })).map (·.sp) = some 0 := by
  decide +kernel

theorem test_stepReserved :
    exec (.stepReserved 0x04#8) (start fixtureT1 [] []) = .refused (.reservedStepTag 0x04#8) := rfl

theorem test_runSeq :
    (nextState (exec (.runSeq .init) (start fixtureT1 [] [.low]))).map (fun s => (s.trace, s.sp)) =
      some ([.c 0xA1#8, .d 0x11#8, .d 0x22#8, .poll .low, .c 0xA2#8], 0) := by decide +kernel

/-! ### Phases and host operations (parts 2.2, 2.7, 2.10 and 3) -/

/-- Part 2.2, T3: the override replaces T2 alone. -/
theorem test_resetPhase :
    (nextState (exec .resetPhase (start fixtureT3 [] []))).map (fun s => (s.trace, s.now, s.rstl, s.pst)) =
      some ([.rst .high, .dly 200, .rst .low, .dly 7, .rst .high], 207, .high, .awake) := by decide +kernel

theorem test_initPhase :
    (nextState (exec .initPhase (start fixtureT2 [] []))).map (fun s => (s.trace, s.pst)) =
      some ([.c 0xA1#8, .d 0x09#8, .d 0x01#8], .ready) := by decide +kernel

/-- Part 2.10 row 1. -/
theorem test_setup :
    (nextState (exec .setup (start fixtureT1 [] [.low]))).map (fun s => (s.trace, s.pst, s.now, s.dc)) =
      some ([.rst .high, .dly 20, .rst .low, .dly 2, .rst .high, .c 0xA1#8, .d 0x11#8, .d 0x22#8, .poll .low,
        .c 0xA2#8], .ready, 22, .low) := by decide +kernel

/-- Part 2.10 row 4: the full path. -/
theorem test_update_full :
    (nextState (exec .update (start fixtureT2 [0xFF#8, 0xC0#8, 0xFF#8, 0xC0#8] [.high]))).map
        (fun s => (s.trace, s.cnt)) =
      some ([.c 0xB0#8, .d 0x5A#8, .c 0x24#8, .d 0xFF#8, .d 0xC0#8, .d 0xFF#8, .d 0xC0#8, .c 0x12#8, .poll .high],
        1) := by decide +kernel

/-- Part 2.7, CNT 2 and THR 2 after SETFULLEVERY 2: partial, CNT becomes 3 mod 2. -/
theorem test_update_partial :
    (nextState (exec .update { start fixtureT2 [0xFF#8, 0xC0#8, 0xFF#8, 0xC0#8] [.high] with cnt := 2, thr := 2 })).map
        (fun s => (s.trace, s.cnt)) =
      some ([.c 0x24#8, .d 0xFF#8, .d 0xC0#8, .d 0xFF#8, .d 0xC0#8, .c 0x12#8, .poll .high], 1) := by decide +kernel

/-- R188: the full path of a two-plane panel. -/
theorem test_transferRefresh :
    traceOf (exec (.transferRefresh true) (start fixtureTwoPlanes [0x01#8, 0x02#8, 0x03#8, 0x04#8] [.low])) =
      some [.c 0x24#8, .d 0x01#8, .d 0x02#8, .c 0x26#8, .d 0x03#8, .d 0x04#8, .c 0x12#8, .poll .low] := by
  decide +kernel

/-- Part 3, P4 row 10: the timeout is tolerated and the sleep command does not mark itself. -/
theorem test_shutdown_timeout :
    (nextState (exec .shutdown { start fixtureT2 [] [.low, .low, .low, .low] with pst := .ready })).map
        (fun s => (s.trace, s.pst, s.tmo, s.fAsleep)) =
      some ([.c 0xB2#8, .poll .low, .dly 10, .poll .low, .dly 10, .poll .low, .dly 10, .poll .low, .c 0x10#8],
        .asleep, true, false) := by decide +kernel

/-- Part 2.10, T1 asleep. -/
theorem test_deepSleepPhase :
    (nextState (exec .deepSleepPhase { start fixtureT1 [] [] with pst := .asleep })).map
        (fun s => (s.trace, s.pst, s.fAsleep)) = some ([.c 0x10#8, .d 0x01#8], .asleep, true) := by decide +kernel

/-- Part 2.7. -/
theorem test_setFullEvery :
    (nextState (exec (.setFullEvery 4294967295#32) (start fixtureT2 [] []))).map (·.thr) = some 4294967295 ∧
    (nextState (exec (.setFullEvery 0#32) (start fixtureT2 [] []))).map (·.thr) = some 3 ∧
    (nextState (exec (.setFullEvery 4#32) (start fixtureT3 [] []))).map (·.thr) = some 1 := by decide +kernel

theorem test_alwaysFull : (nextState (exec .alwaysFull (start fixtureT2 [] []))).map (·.thr) = some 1 := by
  decide +kernel

theorem test_hostReserved : exec (.hostReserved 0xFF#8) (start fixtureT2 [] []) = .next (start fixtureT2 [] []) := rfl

/-! ### The framebuffer (parts 2.4 to 2.6) -/

/-- T2 after CLEAR: pixel (9, 1), and an accent colour on a one-plane panel. -/
theorem test_setPixel_one_plane :
    fbOf 4 (exec (.setPixel 9#16 1#16 0) (start fixtureT2 (List.replicate 4 0xFF#8) [])) =
      some [0xFF#8, 0xFF#8, 0xFF#8, 0xBF#8] ∧
    fbOf 4 (exec (.setPixel 4#16 1#16 2) (start fixtureT2 (List.replicate 4 0xFF#8) [])) =
      some [0xFF#8, 0xFF#8, 0xF7#8, 0xFF#8] ∧
    fbOf 4 (exec (.setPixel 10#16 0#16 0) (start fixtureT2 (List.replicate 4 0xFF#8) [])) =
      some (List.replicate 4 0xFF#8) := by decide +kernel

/-- T1: (5, 5) black in both bit orders, in a framebuffer of 81 known bytes. -/
theorem test_setPixel_bit_order :
    (nextState (exec (.setPixel 5#16 5#16 0) (start fixtureT1 (List.replicate 81 0xFF#8) []))).map (·.fb) =
      some [(80, 0xFB#8)] ∧
    (nextState (exec (.setPixel 5#16 5#16 0)
      (start { fixtureT1 with bitOrder := .lsbFirst } (List.replicate 81 0xFF#8) []))).map (·.fb) =
      some [(80, 0xDF#8)] := by decide +kernel

/-- Part 2.5: T2 FILL BLACK writes the padding; an accent fill of two planes. -/
theorem test_fill :
    fbOf 4 (exec (.fill 0) (start fixtureT2 (List.replicate 4 0xFF#8) [])) = some (List.replicate 4 0x00#8) ∧
    fbOf 4 (exec (.fill 2) (start fixtureTwoPlanes (List.replicate 4 0x00#8) [])) = some (List.replicate 4 0xFF#8) ∧
    fbOf 4 (exec (.fill 1) (start fixtureTwoPlanes (List.replicate 4 0x33#8) [])) =
      some [0xFF#8, 0xFF#8, 0x00#8, 0x00#8] := by decide +kernel

theorem test_clear :
    fbOf 4 (exec .clear (start { fixtureTwoPlanes with idle0 := 0xAA#8, idle1 := 0x55#8 } (List.replicate 4 0x00#8) [])) =
      some [0xAA#8, 0xAA#8, 0x55#8, 0x55#8] := by decide +kernel

theorem test_getWidth : (nextState (exec .getWidth (start fixtureT1 [] []))).map (·.result) =
    some (some (.bits16 0x0080#16)) := by decide +kernel

theorem test_getHeight : (nextState (exec .getHeight (start fixtureT1 [] []))).map (·.result) =
    some (some (.bits16 0x0128#16)) := by decide +kernel

theorem test_getType :
    (nextState (exec .getType (start fixtureT1 [] []))).map (·.result) = some (some (.bits1 1#1)) ∧
    (nextState (exec .getType (start fixtureT2 [] []))).map (·.result) = some (some (.bits1 0#1)) := by decide +kernel

/-- Part 2.6 rows 1 and 5. -/
theorem test_bufLen :
    (nextState (exec .bufLen (start fixtureT1 [] []))).map (·.result) = some (some (.bits32 9472#32)) ∧
    (nextState (exec .bufLen (start { fixtureT1 with width := 400, height := 300 } [] []))).map (·.result) =
      some (some (.bits32 30000#32)) := by decide +kernel

/-! ### The waveform LUT (part 2.8) -/

theorem test_packLut :
    (nextState (exec (.packLut lutA) (start fixtureT1 [] []))).map (·.result) = some (some (.image imageA)) := by
  decide +kernel

theorem test_unpackLut :
    (nextState (exec (.unpackLut imageA) (start fixtureT1 [] []))).map (·.result) = some (some (.lut lutA)) := by
  decide +kernel

theorem test_loadLut :
    traceOf (exec (.loadLut imageB) (start fixtureT3 [] [])) = some (.c 0xC3#8 :: imageB.map .d) ∧
    traceOf (exec (.loadLut imageB) (start fixtureT1 [] [])) = some [] := by decide +kernel

/-! ### Witnesses: concrete states and operands that meet each statement's hypotheses -/

/-- T2 with CLEAR's bytes in FB and the host presenting `word`. -/
def presented (word : List Byte) : State :=
  { start fixtureT2 (List.replicate 4 0xFF#8) [.high] with hostIn := word }

/-- Meets `State.Inv`. -/
theorem presented_inv (word : List Byte) : (presented word).Inv where
  cfgOk := by
    show fixtureT2.wellFormed = true
    decide +kernel
  fbCanonical := rfl
  fbBelow := rfl
  thrPos := by
    show 1 ≤ fixtureT2.thrInit
    decide
  selectIdle := rfl
  spIdle := rfl
  noCounter h := by cases h

/-- R291 step 4, R303: a FILL or a CLEAR makes the framebuffer known, also where it writes the power-on
bytes; a SETPIXEL in every byte does not. -/
theorem test_framebufferKnown :
    (nextState (exec .clear (start fixtureT2 (List.replicate 4 0xFF#8) []))).map (·.framebufferKnown) = some true ∧
    (nextState (exec (.fill 0) (start fixtureT2 (List.replicate 4 0x00#8) []))).map (·.framebufferKnown) = some true ∧
    (nextState (exec (.setPixel 0#16 0#16 0) (start fixtureT3 [0xFF#8] []))).map (·.framebufferKnown) = some false := by
  decide +kernel

/-- The outcome is a next state. -/
def completes (o : Host.Outcome State Fault Refusal) : Bool := (nextState o).isSome

theorem next_of_completes {o : Host.Outcome State Fault Refusal} (h : completes o = true) : ∃ t, o = .next t := by
  cases o with
  | next t => exact ⟨t, rfl⟩
  | fault r => cases h
  | refused r => cases h

theorem witness_EncodedOperationDecodesBack :
    ((Instr.setPixel 0x8000#16 0x7FFF#16 255).wellFormed fixtureT2 = true ∧
      (Instr.setPixel 0x8000#16 0x7FFF#16 255).format = .host) ∧
    ((Instr.hostReserved 0x0D#8).wellFormed fixtureT2 = true ∧ (Instr.hostReserved 0x0D#8).format = .host) ∧
    ((Instr.seqWrite 0xFF#8 (List.replicate 255 0xFF#8)).wellFormed fixtureT2 = true ∧
      (Instr.seqWrite 0xFF#8 (List.replicate 255 0xFF#8)).format = .step) ∧
    ((Instr.stepReserved 0x04#8).wellFormed fixtureT2 = true ∧ (Instr.stepReserved 0x04#8).format = .step) ∧
    (Instr.sendCmd 0xFF#8).wellFormed fixtureT2 = true ∧ (Instr.sendData 0x00#8).wellFormed fixtureT2 = true := by
  decide +kernel

theorem witness_HostCommandHasOneWord :
    fixtureT2.colorBits % 8 = 0 ∧ decodeHost fixtureT2.colorBits [0x06#8, 0x02#8, 0xFF#8] = .ok (.fill 2, [0xFF#8]) := by
  decide +kernel

theorem witness_SequenceStepsAndBytesAgree :
    plainStep (.write 0x24#8 (List.replicate 255 0#8)) = true ∧ plainStep (.reserved 0x04#8) = true ∧
    plainStep .wait = true ∧ decodeStep [0x01#8, 0x24#8, 0x00#8, 0x00#8] = .ok (.write 0x24#8 [], [0x00#8]) := by
  decide +kernel

theorem witness_ReservedOpcodeDoesNothing :
    (0x00#8).toNat = 0 ∧ 13 ≤ (0x0D#8).toNat ∧ 13 ≤ (0xFF#8).toNat := by decide

/-- The descriptor statements; the last is the largest panel. -/
theorem witness_well_formed_descriptors :
    fixtureT1.wellFormed = true ∧ fixtureT3.wellFormed = true ∧
    ({ fixtureT1 with width := 32767, height := 32767 } : Config).wellFormed = true := by decide +kernel

/-- One descriptor for each clause, at the boundary. -/
theorem witness_ConstructionRefusesIllFormedDescriptors :
    ({ fixtureT2 with width := 0 } : Config).width = 0 ∧ ({ fixtureT2 with height := 0 } : Config).height = 0 ∧
    32767 < ({ fixtureT2 with width := 32768 } : Config).width ∧
    32767 < ({ fixtureT2 with height := 32768 } : Config).height ∧
    ({ fixtureT2 with thrInit := 0 } : Config).thrInit = 0 ∧
    romWellFormed 2 (seqRom { fixtureT2 with initRom := [0x04#8, 0x00#8] } .init) = false ∧
    romHasLut 6 (seqRom { fixtureT3 with cmdLut := none } .init) = true ∧
    romHasLut 6 (seqRom { fixtureT3 with lutCfg := none } .init) = true ∧
    255 < ({ fixtureT2 with refresh := ⟨0#8, List.replicate 256 0#8⟩ } : Config).refresh.payload.length ∧
    255 < ({ fixtureT2 with sleep := ⟨0#8, List.replicate 256 0#8⟩ } : Config).sleep.payload.length ∧
    255 < (⟨0#8, List.replicate 256 0#8⟩ : PanelWrite).payload.length ∧
    ({ fixtureT2 with pollMs := 0 } : Config).pollMs = 0 := by decide +kernel

theorem witness_StepPerformsTheDecodedCommand :
    (presented [0x02#8, 0x08#8]).cfg.wellFormed = true ∧
    decodeHost (presented [0x02#8, 0x08#8]).cfg.colorBits (presented [0x02#8, 0x08#8]).hostIn =
      .ok (.update, [0x08#8]) := by decide +kernel

theorem witness_StepIsIdleWithoutACommand :
    (presented []).cfg.wellFormed = true ∧
    decodeHost (presented []).cfg.colorBits (presented []).hostIn = .error .noBytes ∧
    decodeHost (presented [0x05#8]).cfg.colorBits (presented [0x05#8]).hostIn = .error .truncated ∧
    ({ fixtureT2 with width := 0 } : Config).wellFormed = false := by decide +kernel

/-- For the statements about a step: an invariant state whose step is an UPDATE that completes. -/
theorem witness_StepKeepsTheInvariant :
    (presented [0x02#8]).Inv ∧ (∃ t, step (presented [0x02#8]) = .next t) ∧ (presented [0x02#8]).slack = [] :=
  ⟨presented_inv _, next_of_completes (by decide +kernel), rfl⟩

/-- For its clause on CNT < THR: the counter at the last value of its cycle, and a SETFULLEVERY whose
operand is just above it. -/
theorem witness_StepKeepsTheInvariant_counter :
    ({ presented [0x04#8, 0#8, 0#8, 0#8, 0x03#8] with cnt := 2 } : State).Inv ∧
    decodeHost 8 [0x04#8, 0#8, 0#8, 0#8, 0x03#8] = .ok (.setFullEvery 3#32, []) ∧
    ¬ (1 ≤ (3#32).toNat ∧ (3#32).toNat ≤ 2) ∧
    ({ presented [0x04#8, 0#8, 0#8, 0#8, 0x03#8] with cnt := 2 } : State).cnt <
      ({ presented [0x04#8, 0#8, 0#8, 0#8, 0x03#8] with cnt := 2 } : State).thr ∧
    ∃ t, step { presented [0x04#8, 0#8, 0#8, 0#8, 0x03#8] with cnt := 2 } = .next t :=
  ⟨{ presented_inv [0x04#8, 0#8, 0#8, 0#8, 0x03#8] with noCounter := fun h => by cases h }, by decide +kernel,
    by decide +kernel, by decide +kernel, next_of_completes (by decide +kernel)⟩

theorem witness_LatchesFollowTheTrace :
    (presented [0x02#8]).Latched .low .low ∧ ∃ t, step (presented [0x02#8]) = .next t :=
  ⟨⟨rfl, rfl⟩, next_of_completes (by decide +kernel)⟩

/-- The same UPDATE with an idle panel and with one that stays busy, later and after a timeout. -/
theorem witness_WaitsDoNotChangeThePath :
    SamePath (presented [0x02#8])
      { presented [0x02#8] with busyIn := [.low, .low, .low, .low], now := 7, tmo := true } ∧
    ∃ t, step (presented [0x02#8]) = .next t :=
  ⟨⟨rfl, rfl, rfl, rfl, rfl, rfl, rfl, rfl, rfl, rfl, rfl, rfl, rfl, rfl, rfl⟩, next_of_completes (by decide +kernel)⟩

theorem witness_OnlyFramebufferOperationsWriteFb :
    (∃ t, exec .setup (presented []) = .next t) ∧ (∀ x y color, Instr.setup ≠ .setPixel x y color) ∧
    (∀ color, Instr.setup ≠ .fill color) ∧ Instr.setup ≠ .clear :=
  ⟨next_of_completes (by decide +kernel), nofun, nofun, nofun⟩

/-- Each clause has an operation that completes. -/
theorem witness_RegistersHaveTheirWriters :
    completes (exec .setup (presented [])) = true ∧ completes (exec .initPhase (presented [])) = true ∧
    completes (exec .shutdown (presented [])) = true ∧ completes (exec .deepSleepPhase (presented [])) = true ∧
    completes (exec .resetPhase (presented [])) = true ∧ completes (exec .update (presented [])) = true ∧
    completes (exec .clear (presented [])) = true := by decide +kernel

theorem witness_AwakePanelIsNeverMarkedAsleep :
    (presented []).pst ≠ .asleep ∧ completes (exec .shutdown (presented [])) = true := by decide +kernel

theorem witness_TrafficToASleepingPanelIsMarked :
    ({ start fixtureT3 [0x00#8] [] with pst := .asleep } : State).cfg.wellFormed = true ∧
    ({ start fixtureT3 [0x00#8] [] with pst := .asleep } : State).pst = .asleep ∧
    ({ start fixtureT3 [0x00#8] [] with pst := .asleep } : State).cfg.cmdLut ≠ none := by decide +kernel

/-- The pin and delay statements: a reference-time state with a pin and one without, the line at low. -/
theorem witness_pins_and_time :
    (start fixtureT1 [] []).slack = [] ∧ (start fixtureT1 [] []).rstl = .low ∧
    (start fixtureT1 [] [.high]).cfg.hasBusyPin = true ∧ (start fixtureT1 [] [.high]).busyIn = .high :: [] ∧
    1 ≤ (start fixtureT1 [] []).cfg.pollMs ∧ (start fixtureT3 [] []).cfg.hasBusyPin = false := by decide +kernel

/-- A pin of T1 that is busy until `t`. -/
def pinUntil (t u : Nat) : Level := if u < t then .high else .low

/-- T = 30: idle at once, at 12 (part 2.3 row 3) and exactly at the deadline (row 4). -/
theorem witness_WaitEndsWhenThePanelGoesIdle :
    ∀ t ∈ [0, 12, 30], ∃ s : State, s.cfg.hasBusyPin = true ∧ 1 ≤ s.cfg.pollMs ∧ s.slack = [] ∧ t ≤ 30 ∧
      (∀ u, u < t → pinUntil t (s.now + u) = s.cfg.busyActive) ∧
      (∀ u, t ≤ u → pinUntil t (s.now + u) ≠ s.cfg.busyActive) ∧
      (∀ k, k ≤ 30 → s.busyIn[k]? = some (pinUntil t (s.now + s.cfg.pollMs * k))) := by
  intro t ht
  refine ⟨start fixtureT1 [] ((List.range 31).map fun k => pinUntil t (10 * k)), rfl, ?_, rfl, ?_, ?_, ?_, ?_⟩
  · show 1 ≤ fixtureT1.pollMs
    decide
  · simp only [List.mem_cons, List.not_mem_nil, or_false] at ht
    omega
  · intro u hu
    simp [pinUntil, start, State.afterConstruction, fixtureT1, hu]
  · intro u hu
    simp [pinUntil, start, State.afterConstruction, fixtureT1, Nat.not_lt.2 hu]
  · intro k hk
    have hk' : k < 31 := by omega
    simp [start, State.afterConstruction, fixtureT1, Config.reference, hk']

theorem witness_WaitTimesOutOnABusyPanel :
    ∃ s : State, s.cfg.hasBusyPin = true ∧ 1 ≤ s.cfg.pollMs ∧ s.slack = [] ∧
      ∀ k, k ≤ 25 → s.busyIn[k]? = some s.cfg.busyActive := by
  refine ⟨start fixtureT1 [] (List.replicate 26 .high), rfl, by decide, rfl, fun k hk => ?_⟩
  have hk' : k < 26 := by omega
  show (List.replicate 26 Level.high)[k]? = some Level.high
  rw [List.getElem?_replicate, if_pos hk']

/-- The plane statements: a two-plane panel, and a one-plane panel for the absent plane. -/
theorem witness_planes :
    (start fixtureT1 [] []).cfg.hasAccent = true ∧ (start fixtureT2 [] []).cfg.hasAccent = false := by decide +kernel

/-- A two-plane panel, a panel with a power-off command and one with a LUT register. -/
theorem witness_PanelCommandsSendTheirField :
    (start fixtureT1 [] []).cfg.hasAccent = true ∧ (start fixtureT2 [] []).cfg.powerOff = some ⟨0xB2#8, []⟩ ∧
    (start fixtureT3 [] []).cfg.cmdLut = some 0xC3#8 := by decide +kernel

/-- A two-plane descriptor for the full path; the partial path has no hypothesis. -/
theorem witness_FullTransferReinitializesAndSendsEveryPlane :
    (start fixtureTwoPlanes [] []).cfg.wellFormed = true ∧ (start fixtureTwoPlanes [] []).cfg.hasAccent = true := by
  decide +kernel

theorem witness_PowerOffIsWrittenThenWaitedFor :
    (start fixtureT1 [] []).cfg.powerOff = none ∧ (start fixtureT2 [] []).cfg.powerOff = some ⟨0xB2#8, []⟩ := by
  decide +kernel

theorem witness_LutStepLoadsTheConstructionTable :
    (start fixtureT3 [] []).cfg.lutCfg = some lutA ∧
    (start { fixtureT3 with cmdLut := none } [] []).cfg.lutCfg = some lutA ∧
    (start { fixtureT3 with cmdLut := none } [] []).cfg.cmdLut = none ∧
    (start fixtureT1 [] []).cfg.lutCfg = none := by decide +kernel

theorem witness_ReservedTagIsRefused :
    4 ≤ (0x04#8).toNat ∧ 4 ≤ (0xFF#8).toNat ∧
    seqRom (start { fixtureT2 with initRom := [0x04#8, 0x00#8] } [] []).cfg .init = 0x04#8 :: [0x00#8] := by
  decide +kernel

/-- T1's INIT, with a byte after its END. -/
theorem witness_RomAndListReadingsAgree :
    (∀ x ∈ [SeqStep.write 0xA1#8 [0x11#8, 0x22#8], .wait, .write 0xA2#8 []], plainStep x = true) ∧
    seqRom (start { fixtureT1 with initRom := fixtureT1.initRom ++ [0x77#8] } [] []).cfg .init =
      encodeSeq [.write 0xA1#8 [0x11#8, 0x22#8], .wait, .write 0xA2#8 []] ++ [0x77#8] := by decide +kernel

theorem witness_CounterIsUpdatesModThreshold :
    (start fixtureT2 [] []).cfg.wellFormed = true ∧ (start fixtureT2 [] []).cfg.counterBased = true ∧
    1 ≤ (start fixtureT2 [] []).thr ∧ (start fixtureT2 [] []).cnt = 0 := by decide +kernel

/-- The first and the last pixel of T1. -/
theorem witness_SetPixelSetsOneBit :
    (0 ≤ (0#16).toInt ∧ (0#16).toInt < fixtureT1.width ∧ (0#16).toInt < fixtureT1.height) ∧
    0 ≤ (127#16).toInt ∧ (127#16).toInt < fixtureT1.width ∧ 0 ≤ (295#16).toInt ∧
    (295#16).toInt < fixtureT1.height := by decide +kernel

/-- Each clause at its boundary (part 2.4). -/
theorem witness_SetPixelOutOfRangeIsANoOp :
    (0xFFFF#16).toInt < 0 ∧ (fixtureT1.width : Int) ≤ (128#16).toInt ∧ (fixtureT1.height : Int) ≤ (296#16).toInt := by
  decide +kernel

/-- T1's accent plane, first and last pixel; T2's first padding bit, column 10. -/
theorem witness_DistinctPixelsHaveDistinctBits :
    planePresent fixtureT1 .ac = true ∧ 0 < fixtureT1.width ∧ 0 < fixtureT1.height ∧ 127 < fixtureT1.width ∧
    295 < fixtureT1.height ∧ planePresent fixtureT2 .bw = true ∧ fixtureT2.width ≤ 10 ∧ 10 < 8 * stride fixtureT2 := by
  decide +kernel

theorem witness_UnpackUndoesPack : lutA.shapeOk = true ∧ lutA.inRange = true := by decide +kernel

theorem witness_images :
    imageA.length = 158 ∧ (start fixtureT1 [] []).cfg.cmdLut = none ∧
    (start fixtureT3 [] []).cfg.cmdLut = some 0xC3#8 := by decide +kernel

end Sys2Proof.Tests
end

section
/-! PROOFS. SETPIXEL outside the panel (R65, R150). -/

namespace Sys2Proof.Machine

/-- The bounds test fails exactly when one of its four comparisons does (R65). -/
theorem inBounds_eq_false_iff (c : Config) (x y : Int) :
    inBounds c x y = false ↔ x < 0 ∨ (c.width : Int) ≤ x ∨ y < 0 ∨ (c.height : Int) ≤ y := by
  simp only [inBounds, decide_eq_false_iff_not]
  omega

/-- The out-of-bounds branch of SETPIXEL, which does not classify the colour (R65). -/
theorem execSetPixel_of_outOfBounds {x y : BitVec 16} {s : State} (color : Nat)
    (h : inBounds s.cfg (coord x) (coord y) = false) : execSetPixel x y color s = .next s := by
  simp only [execSetPixel, h, Bool.false_eq_true, if_false]

/-- The SETPIXEL arm of `exec`. -/
theorem exec_setPixel (x y : BitVec 16) (color : Nat) (s : State) :
    exec (.setPixel x y color) s = execSetPixel x y color s := rfl

/-- Settles O52: a coordinate out of range fails the bounds test, and SETPIXEL then leaves the state alone. -/
theorem setPixelOutOfRangeIsANoOp : Obligations.SetPixelOutOfRangeIsANoOp := by
  intro x y color s hout
  have hbounds : inBounds s.cfg (coord x) (coord y) = false :=
    (inBounds_eq_false_iff s.cfg (coord x) (coord y)).mpr hout
  rw [exec_setPixel, execSetPixel_of_outOfBounds color hbounds]

end Sys2Proof.Machine
end

section
/-! PROOFS. ALWAYSFULL and SETFULLEVERY 1 (R103). -/

namespace Sys2Proof.Machine

/-- SETFULLEVERY's word: opcode 4, then its operand on four bytes (R93). -/
theorem encode_setFullEvery (c : Config) (n : BitVec 32) :
    encode c (.setFullEvery n) = .host (0x04#8 :: natToBytes 4 n.toNat) := rfl

/-- ALWAYSFULL's word, the row of its own that the encoder has for it. -/
theorem encode_alwaysFull (c : Config) : encode c .alwaysFull = .host (0x04#8 :: natToBytes 4 1) := rfl

/-- SETFULLEVERY completes with R195's effect of its unsigned operand (R96). -/
theorem exec_setFullEvery (n : BitVec 32) (s : State) :
    exec (.setFullEvery n) s = .next (setFullEvery n.toNat s) := rfl

/-- ALWAYSFULL completes with R195's effect of the threshold 1. -/
theorem exec_alwaysFull (s : State) : exec .alwaysFull s = .next (setFullEvery 1 s) := rfl

/-- Settles O6: the word and the effect of SETFULLEVERY depend on its operand's value alone, and the
operand `1#32` has the value 1 that ALWAYSFULL fixes. -/
theorem alwaysFullIsSetFullEveryOne : Obligations.AlwaysFullIsSetFullEveryOne := by
  intro c s
  have hone : (1#32).toNat = 1 := BitVec.toNat_one (by decide)
  refine ⟨?_, setFullEvery 1 s, exec_alwaysFull s, ?_⟩
  · rw [encode_alwaysFull, encode_setFullEvery, hone]
  · rw [exec_setFullEvery, hone]

end Sys2Proof.Machine
end

section
/-! PROOFS. SENDCMD and SENDDATA, one transaction each, in the state and on the wires (R91, R120, R121). -/

namespace Sys2Proof.Machine

/-- SENDCMD completes with one transaction in command mode (R120). -/
theorem exec_sendCmd (b : Byte) (s : State) : exec (.sendCmd b) s = .next (transact .low b s) := rfl

/-- SENDDATA completes with one transaction in data mode (R121). -/
theorem exec_sendData (b : Byte) (s : State) : exec (.sendData b) s = .next (transact .high b s) := rfl

/-- On the wires a transaction's event is that transaction's frame alone: its mode line is the level the
event stands for (R15, R91). -/
theorem traceLineSteps_busEvent (l : Level) (b : Byte) : traceLineSteps [busEvent l b] = frameLineSteps l b := by
  cases l with
  | low => exact List.append_nil (frameLineSteps .low b)
  | high => exact List.append_nil (frameLineSteps .high b)

/-- The eight bits of a byte in the order they are sent (R67). -/
theorem wireBits_eq (b : Byte) :
    wireBits b = [b.getLsbD 7, b.getLsbD 6, b.getLsbD 5, b.getLsbD 4, b.getLsbD 3, b.getLsbD 2, b.getLsbD 1,
      b.getLsbD 0] := rfl

/-- Settles O23: each operation is one `transact`, and the line clause spells out its frame, every bit one
clock pulse. -/
theorem oneTransactionPerByte : Obligations.OneTransactionPerByte := by
  intro b s
  refine ⟨?command, ?data, fun l => ?wires⟩
  case command => rw [exec_sendCmd, transact, asleepAfterTransaction, busEvent]
  case data => rw [exec_sendData, transact, asleepAfterTransaction, busEvent]
  case wires =>
    rw [traceLineSteps_busEvent, frameLineSteps, wireBits_eq]
    simp only [List.flatMap_cons, List.flatMap_nil, bitLineSteps, List.cons_append, List.nil_append]

end Sys2Proof.Machine
end

section
/-! PROOFS. DRIVERST, with the repeated level (R125). -/

namespace Sys2Proof.Machine

/-- DRIVERST completes with R125's effect in every state. -/
theorem exec_driveRst (l : Level) (s : State) : exec (.driveRst l) s = .next (driveLine l s) := rfl

/-- Driving the level the line already has leaves the event alone (R125). -/
theorem driveLine_rstl_self (s : State) : driveLine s.rstl s = { s with trace := s.trace ++ [.rst s.rstl] } := rfl

/-- Settles O26: DRIVERST is `driveLine`, which does not ask what level the line has. -/
theorem resetLineIsDriven : Obligations.ResetLineIsDriven := by
  intro l s
  refine ⟨?_, fun hlevel => ?_⟩
  · rw [exec_driveRst, driveLine]
  · subst hlevel
    rw [exec_driveRst, driveLine_rstl_self]

end Sys2Proof.Machine
end

section
/-! PROOFS. XFERPLANE of a plane the panel has (R187). -/

namespace Sys2Proof.Machine

/-- The XFERPLANE arm of `exec`. -/
theorem exec_xferPlane (p : Plane) (s : State) : exec (.xferPlane p) s = execXferPlane p s := rfl

/-- XFERPLANE of a plane that exists completes with the plane's transfer (R61, R187). -/
theorem execXferPlane_of_present {p : Plane} {s : State} (h : planePresent s.cfg p = true) :
    execXferPlane p s = .next (sendPlane p s) := if_pos h

/-- Plane 0 is always there, and plane 1 on a panel with an accent (R61). -/
theorem planePresent_iff (c : Config) (p : Plane) : planePresent c p = true ↔ p = .bw ∨ c.hasAccent = true := by
  cases p with
  | bw => simp [planePresent]
  | ac => simp [planePresent]

/-- Each plane has its own RAM-write command (R187). -/
theorem planeCommand_eq (c : Config) (p : Plane) :
    planeCommand c p = if p = .bw then c.cmdRamBw else c.cmdRamAc := by
  cases p with
  | bw => rfl
  | ac => rfl

/-- Settles O32: the plane is present, so XFERPLANE is `sendPlane`, and `sendPlane_eq` gives its whole
effect in terms of the plane's command and its first address. -/
theorem planeIsSentAsStored : Obligations.PlaneIsSentAsStored := by
  intro p s hplane
  have hpresent : planePresent s.cfg p = true := (planePresent_iff s.cfg p).mpr hplane
  rw [exec_xferPlane, execXferPlane_of_present hpresent, sendPlane_eq, planeCommand_eq, planeBase]

end Sys2Proof.Machine
end

section
/-! PROOFS. Step W (R181). -/

namespace Sys2Proof.Machine

/-- Step W completes with its register write, SP moved (R181). -/
theorem exec_seqWrite (c : Byte) (l : List Byte) (s : State) :
    exec (.seqWrite c l) s = .next (stepWrite c l s) := rfl

/-- Step W in closed form: the command, one data transaction per byte, and SP past its `3 + n` bytes
(R181, R180). -/
theorem stepWrite_eq (c : Byte) (l : List Byte) (s : State) :
    stepWrite c l s = { s with
      fAsleep := s.fAsleep || decide (s.pst = .asleep)
      cs := .deasserted
      dc := if l = [] then .low else .high
      sp := s.sp + (3 + l.length)
      trace := s.trace ++ .c c :: l.map .d } := by
  rw [stepWrite, sendWrite_eq, setSp, asleepAfterTransaction]

/-- Settles O36: the closed form of `stepWrite` with its SP left unsaid. -/
theorem writeStepSendsItsBytes : Obligations.WriteStepSendsItsBytes := by
  intro c l s
  refine ⟨stepWrite c l s, exec_seqWrite c l s, ?_⟩
  rw [stepWrite_sp]
  exact stepWrite_eq c l s

end Sys2Proof.Machine
end

section
/-! PROOFS. The Initialize phase (R186). -/

namespace Sys2Proof.Machine

/-- RUNSEQ is the sequence interpreter (R180). -/
theorem exec_runSeq (q : SeqId) (s : State) : exec (.runSeq q) s = runSequence q s := rfl

/-- The INITPHASE arm of `exec`. -/
theorem exec_initPhase (s : State) : exec .initPhase s = runInitPhase s := rfl

/-- Where INIT runs to its END, the phase completes in the state it leaves, with PST READY (R186). -/
theorem runInitPhase_of_next {s t : State} (h : runSequence .init s = .next t) :
    runInitPhase s = .next (setPst .ready t) := by
  rw [runInitPhase, h, andThen]

/-- Settles O43: INIT runs to its END on a well-formed descriptor, whatever its waits do, and the phase
then only writes PST. -/
theorem initializePhaseRunsInit : Obligations.InitializePhaseRunsInit := by
  intro s hwf
  obtain ⟨t, hinit⟩ := runSequence_completes hwf .init
  refine ⟨t, ?_, ?_⟩
  · rw [exec_runSeq, hinit]
  · rw [exec_initPhase, runInitPhase_of_next hinit, setPst]

end Sys2Proof.Machine
end

section
/-! PROOFS. A step has no exception outcome (R260). -/

namespace Sys2Proof.Machine

/-- With a whole command on the port, a step takes it and performs it (R92). -/
theorem step_of_decoded {s : State} {i : Instr} {rest : List Byte} (hwf : s.cfg.wellFormed = true)
    (hcmd : decodeHost s.cfg.colorBits s.hostIn = .ok (i, rest)) : step s = exec i (accept rest s) := by
  simp only [step, hwf, if_true, fetch, hcmd]

/-- With no whole command on the port, a step holds the state (R274, log 8). -/
theorem step_of_not_decoded {s : State} {e : DecodeError} (hwf : s.cfg.wellFormed = true)
    (hcmd : decodeHost s.cfg.colorBits s.hostIn = .error e) : step s = .next s := by
  simp only [step, hwf, if_true, fetch, hcmd]

/-- Settles O12: an idle step holds the state, and a command from the port is a host operation, which
completes on every well-formed descriptor; taking it off the port leaves the descriptor as it was. -/
theorem stepNeverStops : Obligations.StepNeverStops := by
  intro s hwf
  cases hcmd : decodeHost s.cfg.colorBits s.hostIn with
  | error e => exact ⟨s, step_of_not_decoded hwf hcmd⟩
  | ok command =>
    obtain ⟨i, rest⟩ := command
    have hhost : i.format = .host := decodeHost_format hcmd
    have hwf' : (accept rest s).cfg.wellFormed = true := by rw [accept_cfg, hwf]
    rw [step_of_decoded hwf hcmd]
    exact exec_host_completes hhost hwf'

end Sys2Proof.Machine
end

section
/-! PROOFS. The arms of `exec` that the proofs below cite, one equation each. -/

namespace Sys2Proof.Machine

theorem exec_update (s : State) : exec .update s = execUpdate s := rfl
theorem exec_shutdown (s : State) : exec .shutdown s = .next (runDeepSleepPhase s) := rfl
theorem exec_fill (color : Nat) (s : State) : exec (.fill color) s = execFill color s := rfl
theorem exec_clear (s : State) : exec .clear s = .next (fbFillPlanes s.cfg.idle0 s.cfg.idle1 s) := rfl
theorem exec_getWidth (s : State) :
    exec .getWidth s = .next (setResult (.bits16 (BitVec.ofNat 16 s.cfg.width)) s) := rfl
theorem exec_getHeight (s : State) :
    exec .getHeight s = .next (setResult (.bits16 (BitVec.ofNat 16 s.cfg.height)) s) := rfl
theorem exec_getType (s : State) : exec .getType s = .next (setResult (.bits1 (displayType s.cfg)) s) := rfl
theorem exec_bufLen (s : State) :
    exec .bufLen s = .next (setResult (.bits32 (BitVec.ofNat 32 (bufLength s.cfg))) s) := rfl
theorem exec_loadLut (image : List Byte) (s : State) : exec (.loadLut image) s = .next (sendLut image s) := rfl
theorem exec_hostReserved (op : Byte) (s : State) : exec (.hostReserved op) s = .next s := rfl
theorem exec_seqEnd (s : State) : exec .seqEnd s = .next (stepEnd s) := rfl
theorem exec_seqWait (s : State) : exec .seqWait s = .next (stepWait s) := rfl
theorem exec_seqLut (s : State) : exec .seqLut s = stepLut s := rfl
theorem exec_panelRamBw (s : State) : exec .panelRamBw s = .next (sendPlane .bw s) := rfl
theorem exec_panelRamAc (s : State) : exec .panelRamAc s = execXferPlane .ac s := rfl
theorem exec_panelRefresh (s : State) : exec .panelRefresh s = .next (sendPanelWrite s.cfg.refresh s) := rfl
theorem exec_panelSleep (s : State) : exec .panelSleep s = .next (sendPanelWrite s.cfg.sleep s) := rfl
theorem exec_panelPowerOff (s : State) : exec .panelPowerOff s = .next (powerDown s) := rfl
theorem exec_panelLutWrite (image : List Byte) (s : State) :
    exec (.panelLutWrite image) s = .next (sendLut image s) := rfl
theorem exec_delay (d : Nat) (s : State) : exec (.delay d) s = .next (delayFor d s) := rfl
theorem exec_sampleBusy (s : State) : exec .sampleBusy s = execSampleBusy s := rfl
theorem exec_waitIdle (n : Nat) (s : State) :
    exec (.waitIdle n) s = .next (setResult (.wait (waitUntilIdle n s).1) (waitUntilIdle n s).2) := rfl
theorem exec_sendWrite (c : Byte) (l : List Byte) (s : State) :
    exec (.sendWrite c l) s = .next (sendWrite c l s) := rfl
theorem exec_resetPhase (s : State) : exec .resetPhase s = .next (runResetPhase s) := rfl
theorem exec_transferRefresh (full : Bool) (s : State) :
    exec (.transferRefresh full) s = runTransferRefresh full s := rfl
theorem exec_deepSleepPhase (s : State) : exec .deepSleepPhase s = .next (runDeepSleepPhase s) := rfl
theorem exec_packLut (l : LutDescriptor) (s : State) :
    exec (.packLut l) s = .next (setResult (.image (packImage l)) s) := rfl
theorem exec_unpackLut (image : List Byte) (s : State) :
    exec (.unpackLut image) s = .next (setResult (.lut (unpackImage image)) s) := rfl

end Sys2Proof.Machine
end

section
/-! PROOFS. The host command words: encoder and decoder agree both ways (R92, R93, R96, R99). -/

namespace Sys2Proof

open Machine

/-- Reading operands of a known length that stand first. -/
theorem withOperands_of_length {α : Type} {n : Nat} {bs : List Byte} (h : bs.length = n) (rest : List Byte)
    (f : List Byte → α) : withOperands n (bs ++ rest) f = .ok (f bs, rest) :=
  h ▸ withOperands_append bs rest f

/-- A word's value reads back from its bytes. -/
theorem ofNat_bytesToNat_natToBytes {k w : Nat} (v : BitVec w) (h : w = 8 * k) :
    BitVec.ofNat w (bytesToNat (natToBytes k v.toNat)) = v := by
  have hlt : v.toNat < 256 ^ k := by
    rw [show (256 : Nat) = 2 ^ 8 from rfl, ← pow_mul, ← h]
    exact v.isLt
  rw [bytesToNat_natToBytes, Nat.mod_eq_of_lt hlt, BitVec.ofNat_toNat, BitVec.setWidth_eq]

/-- Bytes read as one word give that word's bytes. -/
theorem natToBytes_ofNat_bytesToNat {k w : Nat} {bs : List Byte} (hk : bs.length = k) (hw : w = 8 * k) :
    natToBytes k (BitVec.ofNat w (bytesToNat bs)).toNat = bs := by
  subst hk
  have hlt : bytesToNat bs < 2 ^ w := by
    rw [hw, pow_mul]
    exact bytesToNat_lt bs
  rw [BitVec.toNat_ofNat, Nat.mod_eq_of_lt hlt, natToBytes_bytesToNat]

/-- A byte of a known value is that literal. -/
theorem byte_eq_of_toNat {b : Byte} {k : Nat} (h : b.toNat = k) : b = BitVec.ofNat 8 k := by
  rw [← h, BitVec.ofNat_toNat, BitVec.setWidth_eq]

/-- A reserved opcode is a command of one byte (R99). -/
theorem decodeHost_reserved (n : Nat) {op : Byte} (rest : List Byte) (h : op.toNat = 0 ∨ 13 ≤ op.toNat) :
    decodeHost n (op :: rest) = .ok (.hostReserved op, rest) := by
  simp only [decodeHost]
  split
  case h_13 => rfl
  all_goals omega

/-- Opcode 4 reads the four bytes of its operand (R93). -/
theorem decodeHost_opcode4 (n : Nat) (bs : List Byte) :
    decodeHost n (0x04#8 :: bs) = withOperands 4 bs fun op => .setFullEvery (BitVec.ofNat 32 (bytesToNat op)) := rfl

/-- Opcode 5 reads two coordinates and a colour (R93). -/
theorem decodeHost_opcode5 (n : Nat) (bs : List Byte) :
    decodeHost n (0x05#8 :: bs) = withOperands (4 + colorBytes n) bs fun op =>
      .setPixel (BitVec.ofNat 16 (bytesToNat (op.take 2))) (BitVec.ofNat 16 (bytesToNat ((op.drop 2).take 2)))
        (colorOfBytes n (op.drop 4)) := rfl

/-- Opcode 6 reads a colour (R93). -/
theorem decodeHost_opcode6 (n : Nat) (bs : List Byte) :
    decodeHost n (0x06#8 :: bs) = withOperands (colorBytes n) bs fun op => .fill (colorOfBytes n op) := rfl

/-- SETPIXEL's operands: two coordinates of two bytes each, then the colour (R93, R96). -/
theorem decodeHost_setPixel {n color : Nat} (x y : BitVec 16) (rest : List Byte) (h : color < 2 ^ n) :
    decodeHost n (0x05#8 :: (natToBytes 2 x.toNat ++ natToBytes 2 y.toNat ++ colorToBytes n color) ++ rest) =
      .ok (.setPixel x y color, rest) := by
  have hx : (natToBytes 2 x.toNat).length = 2 := natToBytes_length 2 _
  have hy : (natToBytes 2 y.toNat).length = 2 := natToBytes_length 2 _
  have hlen : (natToBytes 2 x.toNat ++ natToBytes 2 y.toNat ++ colorToBytes n color).length = 4 + colorBytes n := by
    rw [List.length_append, List.length_append, hx, hy, colorToBytes_length]
  have hdrop (l : List Byte) : l.drop 4 = (l.drop 2).drop 2 := by rw [List.drop_drop]
  rw [List.cons_append, decodeHost_opcode5, withOperands_of_length hlen, List.append_assoc, hdrop,
    List.take_left' hx, List.drop_left' hx, List.take_left' hy, List.drop_left' hy,
    colorOfBytes_colorToBytes h, ofNat_bytesToNat_natToBytes x rfl, ofNat_bytesToNat_natToBytes y rfl]

/-- A host operation's word, with any bytes after it, decodes to the operation and leaves those bytes. -/
theorem decodeHost_encodeHost {c : Config} {i : Instr} (rest : List Byte) (hwf : i.wellFormed c = true)
    (hf : i.format = .host) (hi : i ≠ .alwaysFull) :
    ∃ w, encodeHost c.colorBits i = some w ∧ decodeHost c.colorBits (w ++ rest) = .ok (i, rest) := by
  cases i
  case setup | update | shutdown | clear | getWidth | getHeight | getType | bufLen => exact ⟨_, rfl, rfl⟩
  case setFullEvery n =>
    refine ⟨_, rfl, ?_⟩
    rw [List.cons_append, decodeHost_opcode4, withOperands_of_length (natToBytes_length _ _),
      ofNat_bytesToNat_natToBytes n rfl]
  case setPixel x y color => exact ⟨_, rfl, decodeHost_setPixel x y rest (of_decide_eq_true hwf)⟩
  case fill color =>
    refine ⟨_, rfl, ?_⟩
    rw [List.cons_append, decodeHost_opcode6, withOperands_of_length (colorToBytes_length _ _),
      colorOfBytes_colorToBytes (of_decide_eq_true hwf)]
  case loadLut image => exact ⟨_, rfl, withOperands_of_length (eq_of_beq hwf) rest _⟩
  case hostReserved op => exact ⟨_, rfl, decodeHost_reserved _ rest (of_decide_eq_true hwf)⟩
  case alwaysFull => exact absurd rfl hi
  all_goals cases hf

/-- A host operation is encoded by its word. -/
theorem encode_of_host {c : Config} {i : Instr} {w : List Byte} (hf : i.format = .host)
    (hw : encodeHost c.colorBits i = some w) : encode c i = .host w := by
  have : encode c i = hostWord c.colorBits i := by
    cases i
    case setup | update | shutdown | setFullEvery | setPixel | fill | clear | getWidth | getHeight | getType |
      bufLen | loadLut | alwaysFull | hostReserved => rfl
    all_goals cases hf
  rw [this, hostWord, hw]

/-- A colour of whole bytes has no padding bits (R93). -/
theorem colorPad_of_wholeBytes {n : Nat} (h : n % 8 = 0) : colorPad n = 0 := by
  unfold colorPad colorBytes
  omega

/-- A colour read from whole bytes has `n` bits (R93). -/
theorem colorOfBytes_lt {n : Nat} {bs : List Byte} (h : n % 8 = 0) (hlen : bs.length = colorBytes n) :
    colorOfBytes n bs < 2 ^ n := by
  have hbits : n = 8 * bs.length := by rw [hlen]; unfold colorBytes; omega
  have hlt := bytesToNat_lt bs
  rwa [colorOfBytes, colorPad_of_wholeBytes h, pow_zero, Nat.div_one, hbits, pow_mul]

/-- A colour read from whole bytes has those bytes (R93). -/
theorem colorToBytes_colorOfBytes {n : Nat} {bs : List Byte} (h : n % 8 = 0) (hlen : bs.length = colorBytes n) :
    colorToBytes n (colorOfBytes n bs) = bs := by
  rw [colorToBytes, colorOfBytes, colorPad_of_wholeBytes h, pow_zero, Nat.div_one, Nat.mul_one, ← hlen,
    natToBytes_bytesToNat]

/-- SETPIXEL's operand bytes are its coordinates' and its colour's (R93, R96). -/
theorem encodeHost_setPixel_of_operands {n : Nat} {op : List Byte} (h : n % 8 = 0)
    (hlen : op.length = 4 + colorBytes n) :
    encodeHost n (.setPixel (BitVec.ofNat 16 (bytesToNat (op.take 2)))
      (BitVec.ofNat 16 (bytesToNat ((op.drop 2).take 2))) (colorOfBytes n (op.drop 4))) = some (0x05#8 :: op) := by
  have hx : (op.take 2).length = 2 := by rw [List.length_take]; omega
  have hy : ((op.drop 2).take 2).length = 2 := by rw [List.length_take, List.length_drop]; omega
  have hc : (op.drop 4).length = colorBytes n := by rw [List.length_drop]; omega
  have hdrop : op.drop 4 = (op.drop 2).drop 2 := by rw [List.drop_drop]
  rw [encodeHost, natToBytes_ofNat_bytesToNat hx rfl, natToBytes_ofNat_bytesToNat hy rfl,
    colorToBytes_colorOfBytes h hc, hdrop, List.append_assoc, List.take_append_drop, List.take_append_drop]

/-- Whatever the host decoder answers is well formed, and the bytes it took are that operation's word. -/
theorem decodeHost_ok {c : Config} {bs rest : List Byte} {i : Instr} (hc : c.colorBits % 8 = 0)
    (h : decodeHost c.colorBits bs = .ok (i, rest)) :
    i.wellFormed c = true ∧ ∃ w, encodeHost c.colorBits i = some w ∧ bs = w ++ rest := by
  cases bs with
  | nil => cases h
  | cons opcode body =>
    simp only [decodeHost] at h
    split at h
    case h_1 hop | h_2 hop | h_3 hop | h_7 hop | h_8 hop | h_9 hop | h_10 hop | h_11 hop =>
      cases h
      rw [byte_eq_of_toNat hop]
      exact ⟨rfl, _, rfl, rfl⟩
    case h_4 hop =>
      obtain ⟨op, hlen, rfl, rfl⟩ := withOperands_ok h
      rw [byte_eq_of_toNat hop]
      exact ⟨rfl, _, by rw [encodeHost, natToBytes_ofNat_bytesToNat hlen rfl], rfl⟩
    case h_5 hop =>
      obtain ⟨op, hlen, rfl, rfl⟩ := withOperands_ok h
      have hcol : (op.drop 4).length = colorBytes c.colorBits := by rw [List.length_drop]; omega
      rw [byte_eq_of_toNat hop]
      exact ⟨decide_eq_true (colorOfBytes_lt hc hcol), _, encodeHost_setPixel_of_operands hc hlen, rfl⟩
    case h_6 hop =>
      obtain ⟨op, hlen, rfl, rfl⟩ := withOperands_ok h
      rw [byte_eq_of_toNat hop]
      exact ⟨decide_eq_true (colorOfBytes_lt hc hlen), _, by rw [encodeHost, colorToBytes_colorOfBytes hc hlen],
        rfl⟩
    case h_12 hop =>
      obtain ⟨op, hlen, rfl, rfl⟩ := withOperands_ok h
      rw [byte_eq_of_toNat hop]
      exact ⟨beq_iff_eq.mpr hlen, _, rfl, rfl⟩
    case h_13 =>
      cases h
      have hres : opcode.toNat = 0 ∨ 13 ≤ opcode.toNat := by
        simp only [imp_false] at *
        omega
      exact ⟨decide_eq_true hres, _, rfl, rfl⟩

/-- Settles O3: the inversion of the host decoder, one case per opcode. -/
theorem hostCommandHasOneWord : Obligations.HostCommandHasOneWord := by
  intro c bs rest i hc h
  exact decodeHost_ok hc h

/-- Settles O7: the opcode decodes to `hostReserved`, whose meaning is the state itself. -/
theorem reservedOpcodeDoesNothing : Obligations.ReservedOpcodeDoesNothing := by
  intro op rest n s hop
  exact ⟨decodeHost_reserved n rest hop, exec_hostReserved op s⟩

/-! ### Sequence steps (R94, R98, R101) -/

/-- A reserved tag is a step of one byte (R98). -/
theorem decodeStep_reserved {tag : Byte} (rest : List Byte) (h : 4 ≤ tag.toNat) :
    decodeStep (tag :: rest) = .ok (.reserved tag, rest) := by
  simp only [decodeStep]
  split
  case h_5 => rfl
  all_goals omega

/-- A step's encoding, with any bytes after it, decodes to the step and leaves those bytes. -/
theorem decodeStep_encodeStep {q : SeqStep} (rest : List Byte) (hq : q = .stop ∨ plainStep q = true) :
    decodeStep (encodeStep q ++ rest) = .ok (q, rest) := by
  cases q with
  | stop => rfl
  | wait => rfl
  | lut => rfl
  | write c p =>
    have hp : p.length ≤ 255 := of_decide_eq_true (hq.resolve_left nofun)
    have hlen : (BitVec.ofNat 8 p.length).toNat = p.length := by
      rw [BitVec.toNat_ofNat]
      omega
    show withOperands (BitVec.ofNat 8 p.length).toNat (p ++ rest) _ = _
    exact withOperands_of_length hlen.symm rest _
  | reserved tag => exact decodeStep_reserved rest (of_decide_eq_true (hq.resolve_left nofun))

/-- What the step decoder takes from any bytes is the encoding of the step it answers. -/
theorem decodeStep_ok {bs rest : List Byte} {q : SeqStep} (h : decodeStep bs = .ok (q, rest)) :
    bs = encodeStep q ++ rest ∧ (q = .stop ∨ plainStep q = true) := by
  cases bs with
  | nil => cases h
  | cons tag body =>
    simp only [decodeStep] at h
    split at h
    case h_1 htag =>
      cases h
      rw [byte_eq_of_toNat htag]
      exact ⟨rfl, .inl rfl⟩
    case h_2 htag =>
      split at h
      case h_1 c n tail =>
        obtain ⟨p, hlen, rfl, rfl⟩ := withOperands_ok h
        have hp : p.length ≤ 255 := by
          have := n.isLt
          omega
        rw [byte_eq_of_toNat htag, byte_eq_of_toNat hlen.symm]
        exact ⟨rfl, .inr (decide_eq_true hp)⟩
      case h_2 => cases h
    case h_3 htag | h_4 htag =>
      cases h
      rw [byte_eq_of_toNat htag]
      exact ⟨rfl, .inr rfl⟩
    case h_5 =>
      cases h
      have hres : 4 ≤ tag.toNat := by
        simp only [imp_false] at *
        omega
      exact ⟨rfl, .inr (decide_eq_true hres)⟩

/-- Settles O4: the round trip of the STEP format and the inversion of its decoder. -/
theorem sequenceStepsAndBytesAgree : Obligations.SequenceStepsAndBytesAgree :=
  ⟨fun _ rest hq => decodeStep_encodeStep rest hq, fun _ _ _ h => decodeStep_ok h⟩

/-! ### Bus frames (R91, R100) -/

/-- A frame in command mode is SENDCMD, one in data mode SENDDATA. -/
theorem decodeBus_busFrame (b : Byte) :
    decodeBus (busFrame .low b) = .sendCmd b ∧ decodeBus (busFrame .high b) = .sendData b := by
  have hbyte (l : Level) : (busFrame l b).setWidth 8 = b := by
    rw [busFrame, BitVec.setWidth_append]
    simp
  constructor
  · rw [decodeBus, Laws.Opcode.commandFrame_mode, hbyte]; rfl
  · rw [decodeBus, Laws.Opcode.dataFrame_mode, hbyte]; rfl

/-- Every 9-bit frame is its bit 8 as the mode, then its low byte. -/
theorem eq_busFrame (f : BitVec 9) : f = busFrame (if f.getLsbD 8 then .high else .low) (f.setWidth 8) := by
  revert f
  decide

/-- One bit on the wires: the rising edge samples it, the clock falls back to its idle level, and the data
wire holds the bit (R91, D2). -/
theorem sampledBits_bitLineSteps (wire bit : Bool) (after : List LineStep) :
    sampledBits .low wire (bitLineSteps bit ++ after) = bit :: sampledBits .low bit after := rfl

/-- The panel samples the bits put on the wire, in order. -/
theorem sampledBits_flatMap (wire : Bool) (bits : List Bool) (l : Level) :
    sampledBits .low wire (bits.flatMap bitLineSteps ++ [.select l]) = bits := by
  induction bits generalizing wire with
  | nil => rfl
  | cons bit bits ih => rw [List.flatMap_cons, List.append_assoc, sampledBits_bitLineSteps, ih]

/-- Settles O5: the frame's two parts, and the panel's samples along the eight clock pulses. -/
theorem busFramesAreModeAndByte : Obligations.BusFramesAreModeAndByte := by
  refine ⟨decodeBus_busFrame, eq_busFrame, fun l b wire => ?_⟩
  have hstart (steps : List LineStep) : sampledBits .low wire ([.select (selectLevel .asserted), .mode l] ++ steps) =
      sampledBits .low wire steps := rfl
  rw [traceLineSteps_busEvent, frameLineSteps, List.append_assoc, hstart, sampledBits_flatMap, wireBits_eq]

/-! ### Every operation with a word of its own -/

/-- Decoding a host word with nothing after it. -/
theorem decode_host {c : Config} {i : Instr} {w : List Byte} (h : decodeHost c.colorBits w = .ok (i, [])) :
    decode c (.host w) = .ok i := by
  simp only [decode, h]

/-- Decoding a sequence step with nothing after it. -/
theorem decode_step {c : Config} {q : SeqStep} (hq : q = .stop ∨ plainStep q = true) :
    decode c (.step (encodeStep q)) = .ok q.instr := by
  have h := decodeStep_encodeStep [] hq
  rw [List.append_nil] at h
  simp only [decode, h]

/-- A well-formed operation of format STEP is a step that its encoding carries. -/
theorem exists_seqStep {c : Config} {i : Instr} (hwf : i.wellFormed c = true) (hf : i.format = .step) :
    ∃ q : SeqStep, (q = .stop ∨ plainStep q = true) ∧ q.instr = i ∧ encode c i = .step (encodeStep q) := by
  cases i
  case seqEnd => exact ⟨.stop, .inl rfl, rfl, rfl⟩
  case seqWrite b p => exact ⟨.write b p, .inr hwf, rfl, rfl⟩
  case seqWait => exact ⟨.wait, .inr rfl, rfl, rfl⟩
  case seqLut => exact ⟨.lut, .inr rfl, rfl, rfl⟩
  case stepReserved tag => exact ⟨.reserved tag, .inr hwf, rfl, rfl⟩
  all_goals cases hf

/-- Settles O2: the round trips of the three formats, and that of the host port with bytes left over. -/
theorem encodedOperationDecodesBack : Obligations.EncodedOperationDecodesBack := by
  refine ⟨fun c i hwf hi => ?_, fun c i rest hwf hf hi => decodeHost_encodeHost rest hwf hf hi⟩
  obtain ⟨hf, hne⟩ | hf | ⟨b, rfl | rfl⟩ := hi
  · obtain ⟨w, hw, hd⟩ := decodeHost_encodeHost [] hwf hf hne
    rw [List.append_nil] at hd
    rw [encode_of_host hf hw, decode_host hd]
  · obtain ⟨q, hq, rfl, he⟩ := exists_seqStep hwf hf
    rw [he, decode_step hq]
  · exact congrArg Except.ok (decodeBus_busFrame b).1
  · exact congrArg Except.ok (decodeBus_busFrame b).2

/-- Settles O1: one evaluation of the decoder per vector. -/
theorem decodesWordsOfTheSpec : Obligations.DecodesWordsOfTheSpec :=
  ⟨rfl, rfl, rfl, rfl, rfl, rfl, rfl, rfl, rfl⟩

end Sys2Proof
end

section
/-! PROOFS. Construction and what it refuses (R11, R35, R98), and the step's own clauses (R92, R274). -/

namespace Sys2Proof.Machine

/-- The conditions of R11 one by one, with R98 for both sequences. -/
theorem wellFormed_iff (c : Config) : c.wellFormed = true ↔
    (1 ≤ c.width ∧ c.width ≤ 32767) ∧ (1 ≤ c.height ∧ c.height ≤ 32767) ∧ 1 ≤ c.thrInit ∧
    (∀ q, c.sequenceOk (seqRom c q) = true) ∧ c.refresh.payload.length ≤ 255 ∧
    (∀ w, c.powerOff = some w → w.payload.length ≤ 255) ∧ c.sleep.payload.length ≤ 255 ∧ 1 ≤ c.pollMs ∧
    (∀ l, c.lutCfg = some l → l.shapeOk = true) := by
  have hq : (∀ q, c.sequenceOk (seqRom c q) = true) ↔
      c.sequenceOk c.initRom = true ∧ c.sequenceOk c.fullPreRom = true :=
    ⟨fun h => ⟨h .init, h .fullPre⟩, fun h q => by cases q; exacts [h.1, h.2]⟩
  rw [hq]
  simp only [Config.wellFormed, Bool.and_eq_true, decide_eq_true_eq, Option.all_eq_true]
  tauto

/-- A sequence is in order when its image is well formed and its LUT steps have a register and a table. -/
theorem sequenceOk_iff (c : Config) (rom : List Byte) : c.sequenceOk rom = true ↔
    romWellFormed rom.length rom = true ∧
      (romHasLut rom.length rom = true → c.cmdLut ≠ none ∧ c.lutCfg ≠ none) := by
  simp only [Config.sequenceOk, Bool.and_eq_true, Bool.or_eq_true, Bool.not_eq_true', Option.isSome_iff_ne_none,
    ← Bool.not_eq_true, imp_iff_not_or]

/-- A well-formed descriptor is constructed as it stands (R35). -/
theorem construct_of_wellFormed {c : Config} (h : c.wellFormed = true) :
    State.construct c = some (State.afterConstruction c) := if_pos h

/-- Settles O8: construction is `State.afterConstruction`, read field by field. -/
theorem constructionGivesTheResetValues : Obligations.ConstructionGivesTheResetValues := by
  intro c h
  exact ⟨_, construct_of_wellFormed h, rfl, rfl, rfl, rfl, rfl, rfl, rfl, rfl, rfl, rfl⟩

/-- Settles O9: a descriptor that is constructed meets every condition of R11, so none of the clauses holds. -/
theorem constructionRefusesIllFormedDescriptors : Obligations.ConstructionRefusesIllFormedDescriptors := by
  intro c hbad
  refine if_neg fun hwf => ?_
  obtain ⟨hw, hh, hthr, hseq, hrefresh, hoff, hsleep, hpoll, -⟩ := (wellFormed_iff c).mp hwf
  have hrom q := (sequenceOk_iff c (seqRom c q)).mp (hseq q)
  obtain h | h | h | h | h | ⟨q, h⟩ | ⟨q, h, hnone⟩ | h | ⟨w, h, hlen⟩ | h | h := hbad
  · omega
  · omega
  · omega
  · omega
  · omega
  · rw [(hrom q).1] at h
    cases h
  · exact hnone.elim ((hrom q).2 h).1 ((hrom q).2 h).2
  · omega
  · have := hoff w h
    omega
  · omega
  · omega

/-- Settles O13: nothing is written yet, and THR is R11's THR_INIT. -/
theorem constructionMeetsTheInvariant : Obligations.ConstructionMeetsTheInvariant := by
  have hinv (c : Config) (h : c.wellFormed = true) : (State.afterConstruction c).Inv := by
    obtain ⟨-, -, hthr, -⟩ := (wellFormed_iff c).mp h
    exact ⟨h, rfl, rfl, hthr, rfl, rfl, fun _ => rfl⟩
  exact ⟨hinv, hinv Config.reference (by decide)⟩

/-- Settles O10. -/
theorem stepPerformsTheDecodedCommand : Obligations.StepPerformsTheDecodedCommand := by
  intro s i rest hwf hcmd
  exact step_of_decoded hwf hcmd

/-- Settles O11: the two ways in which a step performs no command. -/
theorem stepIsIdleWithoutACommand : Obligations.StepIsIdleWithoutACommand := by
  refine ⟨fun s e hwf hcmd => step_of_not_decoded hwf hcmd, fun s hwf => ?_⟩
  exact if_neg (by rw [hwf]; exact Bool.false_ne_true)

end Sys2Proof.Machine
end

section
/-! PROOFS. What every step keeps, from what no operation goes beyond (R15, R25, R26, R30, R36, R305). -/

namespace Sys2Proof.Machine

/-- A step does not go beyond `Effect`, counted from the state that took the command. -/
theorem step_effect {s t : State} (h : step s = .next t) : t = s ∨ ∃ rest, Effect (accept rest s) t := by
  obtain ⟨-, ⟨-, hidle⟩ | ⟨i, rest, -, -, hexec⟩⟩ := step_next h
  · exact .inl hidle
  · exact .inr ⟨rest, exec_effect hexec⟩

/-- Settles O15: taking the command writes none of these, and no operation goes beyond `Effect`. -/
theorem stepTakesNothingBack : Obligations.StepTakesNothingBack := by
  intro s t h
  obtain rfl | ⟨rest, he⟩ := step_effect h
  · exact ⟨rfl, rfl, id, id, le_rfl, [], List.append_nil _⟩
  · obtain ⟨w, htrace, -⟩ := he.events
    exact ⟨he.cfg, he.fbInit, he.tmo, he.fAsleep, he.now, ⟨w, htrace.symm⟩⟩

/-- Settles O16: the events an operation adds account for both latches. -/
theorem latchesFollowTheTrace : Obligations.LatchesFollowTheTrace := by
  refine ⟨fun c => ⟨rfl, rfl⟩, fun dc0 rst0 s t hl h => ?_⟩
  obtain rfl | ⟨rest, he⟩ := step_effect h
  · exact hl
  · obtain ⟨w, htrace, hdc, hrst, -⟩ := he.events
    rw [accept_trace] at htrace
    rw [accept_dc, hl.mode] at hdc
    rw [accept_rstl, hl.reset] at hrst
    exact ⟨by rw [hdc, htrace, modeAfter_append], by rw [hrst, htrace, resetAfter_append]⟩

/-- Settles O17: the events an operation adds account for the time. -/
theorem stepLastsTheSumOfItsDelays : Obligations.StepLastsTheSumOfItsDelays := by
  intro s t hs h
  obtain rfl | ⟨rest, he⟩ := step_effect h
  · exact ⟨hs, rfl⟩
  · obtain ⟨w, htrace, -, -, htime⟩ := he.events
    obtain ⟨hslack, hnow⟩ := htime (by rw [accept_slack, hs])
    rw [accept_trace] at htrace
    rw [accept_now] at hnow
    exact ⟨hslack, by rw [hnow, htrace, delaySum_append]; omega⟩

end Sys2Proof.Machine
end

section
/-! PROOFS. The registers' writers (R20, R22, R23, R24, R60, R126, R196), and the invariant (R36). -/

namespace Sys2Proof.Machine

/-- What a phase that ends in PST = `p` leaves: FB and its mark, CNT and THR stay, and an awake panel is not
marked asleep. -/
structure Phase (p : PanelState) (s t : State) : Prop where
  fb : t.fb = s.fb
  fbFilled : t.fbFilled = s.fbFilled
  cnt : t.cnt = s.cnt
  thr : t.thr = s.thr
  pst : t.pst = p
  awake : s.pst ≠ .asleep → t.fAsleep = s.fAsleep

/-- Activity of the sequencer, then a write of PST. -/
theorem Activity.phase {s u : State} (h : Activity s u) (p : PanelState) : Phase p s (setPst p u) :=
  ⟨h.fb, h.fbFilled, h.cnt, h.thr, rfl, h.awake⟩

theorem runResetPhase_phase (s : State) : Phase .awake s (runResetPhase s) := (resetPulse_activity s).phase .awake

theorem runInitPhase_phase {s t : State} (h : runInitPhase s = .next t) : Phase .ready s t := by
  obtain ⟨u, -, hact, -, rfl⟩ := runInitPhase_next h
  exact hact.phase .ready

/-- SETUP wakes the panel first, so that it marks nothing even from ASLEEP (R192, R126). -/
theorem execSetup_phase {s t : State} (h : execSetup s = .next t) : Phase .ready s t ∧ t.fAsleep = s.fAsleep := by
  have hreset := runResetPhase_phase s
  have hinit := runInitPhase_phase h
  have hawake : t.fAsleep = s.fAsleep := by
    rw [hinit.awake (by rw [hreset.pst]; decide), (runResetPhase_frame s).2.2.2.1]
  exact ⟨⟨hinit.fb.trans hreset.fb, hinit.fbFilled.trans hreset.fbFilled, hinit.cnt.trans hreset.cnt,
    hinit.thr.trans hreset.thr, hinit.pst, fun _ => hawake⟩, hawake⟩

theorem runDeepSleepPhase_phase (s : State) : Phase .asleep s (runDeepSleepPhase s) :=
  (sleepWrites_activity s).phase .asleep

/-- Which registers an operation that answers `t` has written: none, or those of one of the writers. -/
inductive Writes (s : State) : Instr → State → Prop where
  | quiet {i : Instr} {t : State} (hq : isQuiet i = true) (kept : Kept s t) : Writes s i t
  | count {u : State} (act : Activity s u) : Writes s .update (countUpdate u)
  | threshold (n : BitVec 32) : Writes s (.setFullEvery n) (setFullEvery n.toNat s)
  | always : Writes s .alwaysFull (setFullEvery 1 s)
  | pixel (x y : BitVec 16) (color : Nat) : Writes s (.setPixel x y color)
      (if inBounds s.cfg (coord x) (coord y) then writePixel color (coord x).toNat (coord y).toNat s else s)
  | fill (color : Nat) (b0 b1 : Byte) : Writes s (.fill color) (fbFillPlanes b0 b1 s)
  | clear (b0 b1 : Byte) : Writes s .clear (fbFillPlanes b0 b1 s)
  | awake {t : State} (phase : Phase .awake s t) : Writes s .resetPhase t
  | ready {i : Instr} {t : State} (hi : i = .setup ∨ i = .initPhase) (phase : Phase .ready s t) : Writes s i t
  | asleep {i : Instr} {t : State} (hi : i = .shutdown ∨ i = .deepSleepPhase) (phase : Phase .asleep s t) :
      Writes s i t

theorem exec_writes {i : Instr} {s t : State} (h : exec i s = .next t) : Writes s i t := by
  by_cases hq : isQuiet i = true
  · exact .quiet hq (exec_kept h hq)
  cases i
  case setup => exact .ready (.inl rfl) (execSetup_phase h).1
  case initPhase => exact .ready (.inr rfl) (runInitPhase_phase h)
  case update =>
    obtain ⟨u, -, hact, rfl⟩ := execUpdate_next h
    exact .count hact
  case shutdown => cases h; exact .asleep (.inl rfl) (runDeepSleepPhase_phase s)
  case deepSleepPhase => cases h; exact .asleep (.inr rfl) (runDeepSleepPhase_phase s)
  case resetPhase => cases h; exact .awake (runResetPhase_phase s)
  case setFullEvery n => cases h; exact .threshold n
  case alwaysFull => cases h; exact .always
  case setPixel x y color => cases h; exact .pixel x y color
  case fill color => cases h; exact .fill color _ _
  case clear => cases h; exact .clear _ _
  all_goals exact absurd rfl hq

/-- SETFULLEVERY's effect is THR alone (R195). -/
theorem setFullEvery_eq (n : Nat) (s : State) : setFullEvery n s = { s with thr := (setFullEvery n s).thr } := by
  unfold setFullEvery
  split <;> rfl

/-- SETPIXEL's effect is FB alone (R150). -/
theorem pixelState_eq (b : Bool) (color x y : Nat) (s : State) :
    (if b then writePixel color x y s else s) =
      { s with fb := (if b then writePixel color x y s else s).fb } := by
  cases b <;> rfl

/-- Settles O20: read off the writers. -/
theorem registersHaveTheirWriters : Obligations.RegistersHaveTheirWriters := by
  intro i s t h
  cases exec_writes h with
  | quiet hq kept =>
    refine ⟨fun _ => kept.cnt, fun _ _ => kept.thr, ?_, ?_, ?_, fun _ _ _ _ _ => kept.pst, fun _ _ => kept.fbFilled⟩
    · rintro (rfl | rfl) <;> cases hq
    · rintro (rfl | rfl) <;> cases hq
    · rintro rfl; cases hq
  | count act =>
    exact ⟨fun hi => absurd rfl hi, fun _ _ => act.thr, nofun, nofun, nofun, fun _ _ _ _ _ => act.pst,
      fun _ _ => act.fbFilled⟩
  | threshold n =>
    rw [setFullEvery_eq]
    exact ⟨fun _ => rfl, fun hi => absurd rfl (hi n), nofun, nofun, nofun, fun _ _ _ _ _ => rfl, fun _ _ => rfl⟩
  | always =>
    rw [setFullEvery_eq]
    exact ⟨fun _ => rfl, fun _ hi => absurd rfl hi, nofun, nofun, nofun, fun _ _ _ _ _ => rfl, fun _ _ => rfl⟩
  | pixel x y color =>
    rw [pixelState_eq]
    exact ⟨fun _ => rfl, fun _ _ => rfl, nofun, nofun, nofun, fun _ _ _ _ _ => rfl, fun _ _ => rfl⟩
  | fill color b0 b1 =>
    rw [fbFillPlanes_eq]
    exact ⟨fun _ => rfl, fun _ _ => rfl, nofun, nofun, nofun, fun _ _ _ _ _ => rfl, fun hi => absurd rfl (hi color)⟩
  | clear b0 b1 =>
    rw [fbFillPlanes_eq]
    exact ⟨fun _ => rfl, fun _ _ => rfl, nofun, nofun, nofun, fun _ _ _ _ _ => rfl, fun _ hi => absurd rfl hi⟩
  | awake phase =>
    exact ⟨fun _ => phase.cnt, fun _ _ => phase.thr, nofun, nofun, fun _ => phase.pst,
      fun _ _ _ _ hi => absurd rfl hi, fun _ _ => phase.fbFilled⟩
  | ready hi phase =>
    refine ⟨fun _ => phase.cnt, fun _ _ => phase.thr, fun _ => phase.pst, ?_, ?_,
      fun h1 h2 => (hi.elim h1 h2).elim, fun _ _ => phase.fbFilled⟩
    · rintro (rfl | rfl) <;> simp at hi
    · rintro rfl; simp at hi
  | asleep hi phase =>
    refine ⟨fun _ => phase.cnt, fun _ _ => phase.thr, ?_, fun _ => phase.pst, ?_,
      fun _ _ h1 h2 => (hi.elim h1 h2).elim, fun _ _ => phase.fbFilled⟩
    · rintro (rfl | rfl) <;> simp at hi
    · rintro rfl; simp at hi

/-- Only the framebuffer operations write FB. -/
theorem exec_fb {i : Instr} {s t : State} (h : exec i s = .next t) (hpixel : ∀ x y color, i ≠ .setPixel x y color)
    (hfill : ∀ color, i ≠ .fill color) (hclear : i ≠ .clear) : t.fb = s.fb := by
  cases exec_writes h with
  | quiet _ kept => exact kept.fb
  | count act => exact act.fb
  | threshold n => rw [setFullEvery_eq]
  | always => rw [setFullEvery_eq]
  | pixel x y color => exact absurd rfl (hpixel x y color)
  | fill color b0 b1 => exact absurd rfl (hfill color)
  | clear b0 b1 => exact absurd rfl hclear
  | awake phase => exact phase.fb
  | ready _ phase => exact phase.fb
  | asleep _ phase => exact phase.fb

/-- Settles O19: FB stays, and with it every byte, as the power-on bytes do. -/
theorem onlyFramebufferOperationsWriteFb : Obligations.OnlyFramebufferOperationsWriteFb := by
  intro i s t h hpixel hfill hclear
  have hfb := exec_fb h hpixel hfill hclear
  exact ⟨hfb, fun a => by rw [fbRead, fbRead, hfb, (exec_effect h).fbInit]⟩

/-- Settles O21: no writer marks an awake panel, and PST = ASLEEP is written after the last transaction. -/
theorem awakePanelIsNeverMarkedAsleep : Obligations.AwakePanelIsNeverMarkedAsleep := by
  intro i s t hpst h
  cases exec_writes h with
  | quiet _ kept => exact kept.awake hpst
  | count act => exact act.awake hpst
  | threshold n => rw [setFullEvery_eq]
  | always => rw [setFullEvery_eq]
  | pixel x y color => rw [pixelState_eq]
  | fill color b0 b1 => rw [fbFillPlanes_eq]
  | clear b0 b1 => rw [fbFillPlanes_eq]
  | awake phase => exact phase.awake hpst
  | ready _ phase => exact phase.awake hpst
  | asleep _ phase => exact phase.awake hpst

/-! ### The invariant of R36, register by register -/

/-- A pixel's write keeps FB canonical and within BUFLEN bytes (R62, R159). -/
theorem writePixel_fbOk {x y : BitVec 16} {s : State} (color : Nat) (hs : s.Inv)
    (hin : inBounds s.cfg (coord x) (coord y) = true) :
    (writePixel color (coord x).toNat (coord y).toNat s).fb.wf s.fbInit = true ∧
      (writePixel color (coord x).toNat (coord y).toNat s).fb.below (bufLength s.cfg) = true := by
  obtain ⟨hx, hx', hy, hy'⟩ := of_decide_eq_true hin
  refine ⟨Memory.wf_write hs.fbCanonical _ _, Memory.below_write hs.fbBelow ?_⟩
  exact pixelAddr_below _ _ _ _ (by omega) (by omega)

theorem exec_fbOk {i : Instr} {s t : State} (hs : s.Inv) (h : exec i s = .next t) :
    t.fb.wf s.fbInit = true ∧ t.fb.below (bufLength s.cfg) = true := by
  have same {u : State} (hfb : u.fb = s.fb) : u.fb.wf s.fbInit = true ∧ u.fb.below (bufLength s.cfg) = true := by
    rw [hfb]
    exact ⟨hs.fbCanonical, hs.fbBelow⟩
  cases exec_writes h with
  | quiet _ kept => exact same kept.fb
  | count act => exact same act.fb
  | threshold n => exact same (by rw [setFullEvery_eq])
  | always => exact same (by rw [setFullEvery_eq])
  | pixel x y color =>
    split
    · exact writePixel_fbOk color hs ‹_›
    · exact same rfl
  | fill color b0 b1 => exact ⟨fbFillPlanes_wf hs.fbCanonical b0 b1, fbFillPlanes_below hs.fbBelow b0 b1⟩
  | clear b0 b1 => exact ⟨fbFillPlanes_wf hs.fbCanonical b0 b1, fbFillPlanes_below hs.fbBelow b0 b1⟩
  | awake phase => exact same phase.fb
  | ready _ phase => exact same phase.fb
  | asleep _ phase => exact same phase.fb

/-- THR after SETFULLEVERY: the operand on a counter-based model where it is at least 1, else THR (R195). -/
theorem setFullEvery_thr (n : Nat) (s : State) :
    (setFullEvery n s).thr = if s.cfg.counterBased = true ∧ 1 ≤ n then n else s.thr := by
  simp only [setFullEvery, Bool.and_eq_true, decide_eq_true_eq]
  split <;> rfl

/-- An operation has written neither CNT nor THR, or has counted an UPDATE, or is SETFULLEVERY or its
pseudo-operation. -/
theorem exec_counter {i : Instr} {s t : State} (h : exec i s = .next t) :
    (t.cnt = s.cnt ∧ t.thr = s.thr) ∨ (t.cnt = nextCount s ∧ t.thr = s.thr) ∨
      ∃ n, (i = .setFullEvery n ∨ i = .alwaysFull ∧ n = 1#32) ∧ t.cnt = s.cnt ∧
        t.thr = if s.cfg.counterBased = true ∧ 1 ≤ n.toNat then n.toNat else s.thr := by
  cases exec_writes h with
  | quiet _ kept => exact .inl ⟨kept.cnt, kept.thr⟩
  | count act =>
    refine .inr (.inl ⟨?_, act.thr⟩)
    rw [countUpdate_cnt, nextCount, nextCount, act.cfg, act.cnt, act.thr]
  | threshold n => exact .inr (.inr ⟨n, .inl rfl, by rw [setFullEvery_eq], setFullEvery_thr n.toNat s⟩)
  | always => exact .inr (.inr ⟨1#32, .inr ⟨rfl, rfl⟩, by rw [setFullEvery_eq], setFullEvery_thr 1 s⟩)
  | pixel x y color => rw [pixelState_eq]; exact .inl ⟨rfl, rfl⟩
  | fill color b0 b1 => rw [fbFillPlanes_eq]; exact .inl ⟨rfl, rfl⟩
  | clear b0 b1 => rw [fbFillPlanes_eq]; exact .inl ⟨rfl, rfl⟩
  | awake phase => exact .inl ⟨phase.cnt, phase.thr⟩
  | ready _ phase => exact .inl ⟨phase.cnt, phase.thr⟩
  | asleep _ phase => exact .inl ⟨phase.cnt, phase.thr⟩

theorem runDeepSleepPhase_sp (s : State) : (runDeepSleepPhase s).sp = s.sp := by
  rw [runDeepSleepPhase, setPst_sp, sendPanelWrite, sendWrite_eq, powerDown_sp]

theorem sendLut_sp (image : List Byte) (s : State) : (sendLut image s).sp = s.sp := by
  unfold sendLut
  split
  · rfl
  · rw [sendWrite_eq]

/-- Between host operations SP is 0 (R28). -/
theorem exec_host_sp {i : Instr} {s t : State} (hf : i.format = .host) (h : exec i s = .next t) (hsp : s.sp = 0) :
    t.sp = 0 := by
  cases i
  case setup =>
    obtain ⟨u, -, hu, rfl⟩ := execSetup_next h
    rw [setPst_sp, hu]
  case update =>
    obtain ⟨u, hu, -, rfl⟩ := execUpdate_next h
    rw [countUpdate_sp, (runTransferRefresh_activity hu).2 hsp]
  case shutdown => cases h; rw [runDeepSleepPhase_sp, hsp]
  case setFullEvery | alwaysFull => cases h; rw [setFullEvery_eq, hsp]
  case setPixel x y color => cases h; rw [pixelState_eq, hsp]
  case fill | clear => cases h; rw [fbFillPlanes_eq, hsp]
  case getWidth | getHeight | getType | bufLen => cases h; rw [setResult_sp, hsp]
  case loadLut image => cases h; rw [sendLut_sp, hsp]
  case hostReserved op => cases h; exact hsp
  all_goals cases hf

/-- The counter part of R36: THR stays at least 1, and without a counter CNT stays 0. -/
theorem exec_counterOk {i : Instr} {s t : State} (hs : s.Inv) (h : exec i s = .next t) :
    1 ≤ t.thr ∧ (s.cfg.counterBased = false → t.cnt = 0) := by
  have hthr := hs.thrPos
  obtain ⟨hcnt, ht⟩ | ⟨hcnt, ht⟩ | ⟨n, -, hcnt, ht⟩ := exec_counter h
  · exact ⟨by omega, fun hc => by rw [hcnt, hs.noCounter hc]⟩
  · exact ⟨by omega, fun hc => by simp [hcnt, nextCount, hc, hs.noCounter hc]⟩
  · exact ⟨by rw [ht]; split <;> omega, fun hc => by rw [hcnt, hs.noCounter hc]⟩

/-- A host operation keeps the invariant. -/
theorem exec_host_inv {i : Instr} {s t : State} (hf : i.format = .host) (h : exec i s = .next t) (hs : s.Inv) :
    t.Inv := by
  have heff := exec_effect h
  obtain ⟨hwf, hbelow⟩ := exec_fbOk hs h
  obtain ⟨hthr, hcnt⟩ := exec_counterOk hs h
  exact {
    cfgOk := by rw [heff.cfg, hs.cfgOk]
    fbCanonical := by rw [heff.fbInit, hwf]
    fbBelow := by rw [heff.cfg, hbelow]
    thrPos := hthr
    selectIdle := heff.cs hs.selectIdle
    spIdle := exec_host_sp hf h hs.spIdle
    noCounter := by rw [heff.cfg]; exact hcnt }

/-- The counter stays in its cycle, but for a SETFULLEVERY that lowers THR to or below it (R22, R195). -/
theorem exec_counterInCycle {i : Instr} {s t : State} (h : exec i s = .next t) (hlt : s.cnt < s.thr)
    (hlow : ∀ n, i = .setFullEvery n ∨ i = .alwaysFull ∧ n = 1#32 → ¬ (1 ≤ n.toNat ∧ n.toNat ≤ s.cnt)) :
    t.cnt < t.thr := by
  obtain ⟨hcnt, ht⟩ | ⟨hcnt, ht⟩ | ⟨n, hi, hcnt, ht⟩ := exec_counter h
  · omega
  · have hmod : (s.cnt + 1) % s.thr < s.thr := Nat.mod_lt _ (by omega)
    rw [hcnt, ht, nextCount]
    split <;> omega
  · have := hlow n hi
    rw [hcnt, ht]
    split <;> omega

/-- ALWAYSFULL does not reach the port: its word is SETFULLEVERY's (R103). -/
theorem decodeHost_ne_alwaysFull {n : Nat} {bs rest : List Byte} {i : Instr} (h : decodeHost n bs = .ok (i, rest)) :
    i ≠ .alwaysFull := by
  rintro rfl
  cases bs with
  | nil => cases h
  | cons op body =>
    simp only [decodeHost] at h
    split at h
    case h_4 | h_5 | h_6 | h_12 =>
      obtain ⟨_, -, -, heq⟩ := withOperands_ok h
      cases heq
    all_goals cases h

/-- Taking a command from the port keeps the invariant. -/
theorem accept_inv {s : State} (rest : List Byte) (hs : s.Inv) : (accept rest s).Inv :=
  ⟨hs.cfgOk, hs.fbCanonical, hs.fbBelow, hs.thrPos, hs.selectIdle, hs.spIdle, hs.noCounter⟩

/-- Settles O14: a step is idle, or performs a host operation, which keeps the invariant and the cycle. -/
theorem stepKeepsTheInvariant : Obligations.StepKeepsTheInvariant := by
  intro s t hs h
  obtain ⟨-, ⟨-, rfl⟩ | ⟨i, rest, hcmd, hf, hexec⟩⟩ := step_next h
  · exact ⟨hs, fun _ hlt => hlt⟩
  · refine ⟨exec_host_inv hf hexec (accept_inv rest hs), fun hlow hlt => ?_⟩
    refine exec_counterInCycle hexec hlt fun n hi => ?_
    obtain rfl | ⟨rfl, -⟩ := hi
    · exact hlow n rest hcmd
    · exact absurd rfl (decodeHost_ne_alwaysFull hcmd)

end Sys2Proof.Machine
end

section
/-! PROOFS. The two readings of a sequence: its ROM image and its list of steps (R28, R94, R180). -/

namespace Sys2Proof.Machine

/-- What follows an operation matters only in the states the operation answers. -/
theorem andThen_congr {o : Host.Outcome State Fault Refusal} {f g : State → Host.Outcome State Fault Refusal}
    (h : ∀ t, o = .next t → f t = g t) : andThen o f = andThen o g := by
  cases o with
  | next t => exact h t rfl
  | fault r => rfl
  | refused r => rfl

/-- The interpreter at a step other than END: the step is performed, then it goes on (R180). -/
theorem runRom_of_step {rom rest : List Byte} {q : SeqStep} {s : State} (fuel : Nat)
    (hd : decodeStep (rom.drop s.sp) = .ok (q, rest)) (hq : plainStep q = true) :
    runRom rom (fuel + 1) s = andThen (exec q.instr s) (runRom rom fuel) := by
  rw [runRom, hd]
  cases q with
  | stop => cases hq
  | write c p => rfl
  | wait => rfl
  | lut => rfl
  | reserved tag => rfl

/-- The interpreter at END (R184). -/
theorem runRom_of_stop {rom rest : List Byte} {s : State} (fuel : Nat)
    (hd : decodeStep (rom.drop s.sp) = .ok (.stop, rest)) : runRom rom (fuel + 1) s = exec .seqEnd s := by
  rw [runRom, hd, exec_seqEnd]

/-- A step that completes moves SP past its encoding (R180). -/
theorem exec_step_sp {q : SeqStep} {s t : State} (hq : plainStep q = true) (h : exec q.instr s = .next t) :
    t.sp = s.sp + (encodeStep q).length := by
  cases q with
  | stop => cases hq
  | write c p =>
    cases h
    rw [stepWrite_sp, encodeStep, List.length_cons, List.length_cons, List.length_cons]
    omega
  | wait => cases h; exact stepWait_sp s
  | lut =>
    simp only [SeqStep.instr, exec_seqLut, stepLut] at h
    split at h
    · cases h
      rw [setSp_sp, encodeStep, List.length_singleton]
    · cases h
  | reserved tag => cases h

theorem encodeSeq_cons (q : SeqStep) (steps : List SeqStep) :
    encodeSeq (q :: steps) = encodeStep q ++ encodeSeq steps := by
  rw [encodeSeq, encodeSeq, List.map_cons, List.flatten_cons, List.append_assoc]

theorem encodeStep_length_pos (q : SeqStep) : 0 < (encodeStep q).length := by
  cases q <;> exact Nat.succ_pos _

/-- Each step takes at least a byte of the image. -/
theorem length_le_encodeSeq (steps : List SeqStep) : steps.length ≤ (encodeSeq steps).length := by
  induction steps with
  | nil => exact Nat.zero_le _
  | cons q steps ih =>
    have := encodeStep_length_pos q
    rw [encodeSeq_cons, List.length_append, List.length_cons]
    omega

/-- The interpreter on the rest of an image, from SP, performs the steps encoded there, then END. -/
theorem runRom_eq_performSteps {rom after : List Byte} {steps : List SeqStep} {fuel : Nat} {s : State}
    (hplain : ∀ q ∈ steps, plainStep q = true) (hrom : rom.drop s.sp = encodeSeq steps ++ after)
    (hfuel : steps.length < fuel) : runRom rom fuel s = performSteps (steps ++ [.stop]) s := by
  obtain _ | fuel := fuel
  · omega
  induction steps generalizing fuel s with
  | nil => exact runRom_of_stop fuel (by rw [hrom]; exact decodeStep_encodeStep after (.inl rfl))
  | cons q steps ih =>
    have hq : plainStep q = true := hplain q List.mem_cons_self
    rw [encodeSeq_cons, List.append_assoc] at hrom
    rw [runRom_of_step fuel (by rw [hrom]; exact decodeStep_encodeStep _ (.inr hq)) hq, List.cons_append, performSteps]
    refine andThen_congr fun t ht => ?_
    have hnext : rom.drop t.sp = encodeSeq steps ++ after := by
      rw [exec_step_sp hq ht, ← List.drop_drop, hrom, List.drop_left]
    rw [List.length_cons] at hfuel
    obtain _ | fuel := fuel
    · omega
    exact ih (fun q hq => hplain q (List.mem_cons_of_mem _ hq)) hnext fuel (by omega)

/-- Settles O40: the image from SP 0 is the whole list, and longer than the list. -/
theorem romAndListReadingsAgree : Obligations.RomAndListReadingsAgree := by
  intro q steps after s hplain hrom
  have hlen : steps.length ≤ (seqRom s.cfg q).length := by
    rw [hrom, List.length_append]
    exact Nat.le_add_right_of_le (length_le_encodeSeq steps)
  exact runRom_eq_performSteps (s := setSp 0 s) hplain hrom (by omega)

/-- Settles O39: the step's own arm, and the interpreter's first round on an image that begins with the tag. -/
theorem reservedTagIsRefused : Obligations.ReservedTagIsRefused := by
  intro tag q rest s htag
  refine ⟨rfl, fun hrom => ?_⟩
  have hd : decodeStep ((seqRom s.cfg q).drop (setSp 0 s).sp) = .ok (.reserved tag, rest) := by
    rw [hrom]
    exact decodeStep_reserved rest htag
  rw [exec_runSeq, runSequence, runRom_of_step _ hd (decide_eq_true htag)]
  rfl

/-- RUNSEQ leaves the registers as Sent says, with SP 0 (R180, R184). -/
theorem runSequence_eq {q : SeqId} {s t : State} (h : runSequence q s = .next t) :
    t = { s with
      sp := 0, tmo := t.tmo, fAsleep := t.fAsleep, cs := t.cs, dc := t.dc, now := t.now, trace := t.trace
      busyIn := t.busyIn, busyTaken := t.busyTaken, slack := t.slack } :=
  (runRom_sent h : Sent (setSp 0 s) t).eq_update (runSequence_activity h).2

/-- Settles O41: a well-formed sequence runs to its END, and all its steps are the sequencer's activity. -/
theorem sequenceRunsToItsEnd : Obligations.SequenceRunsToItsEnd := by
  intro q s hwf
  obtain ⟨t, ht⟩ := runSequence_completes hwf q
  have hact := (runSequence_activity ht).1
  exact ⟨t, ht, hact.cs, hact.awake, runSequence_eq ht⟩

/-! ### WAIT, END and LUT (R182, R183, R184) -/

/-- A wait whose result is discarded is WAITIDLE with the result put back (R124). -/
theorem exec_waitIdle_pace {s t : State} (hcfg : t.cfg = s.cfg) (hres : t.result = s.result) :
    ∃ u, exec (.waitIdle s.cfg.idleTimeoutMs) t = .next u ∧ pace t = { u with result := s.result } := by
  rw [← hcfg, ← hres]
  exact ⟨_, exec_waitIdle _ t, pace_eq t⟩

/-- Settles O37. -/
theorem waitAndEndSteps : Obligations.WaitAndEndSteps := by
  intro s
  refine ⟨?wait, exec_seqEnd s, fun c l => ⟨_, exec_seqWrite c l s, stepWrite_sp c l s⟩⟩
  case wait =>
    obtain ⟨u, hu, hpace⟩ := exec_waitIdle_pace (s := s) rfl rfl
    exact ⟨u, hu, by rw [exec_seqWait, stepWait, hpace, setSp]⟩

/-- Settles O38: one clause per branch of `stepLut` and of `sendLut`. -/
theorem lutStepLoadsTheConstructionTable : Obligations.LutStepLoadsTheConstructionTable := by
  intro s l
  have hstep (h : s.cfg.lutCfg = some l) : exec .seqLut s = .next (setSp (s.sp + 1) (sendLut (packImage l) s)) := by
    rw [exec_seqLut, stepLut, h]
  refine ⟨fun h => ⟨_, exec_loadLut _ s, hstep h⟩, fun h hcmd => ?_, fun h => ?_⟩
  · rw [hstep h, sendLut, hcmd, setSp]
  · rw [exec_seqLut, stepLut, h]

end Sys2Proof.Machine
end

section
/-! PROOFS. No outcome of a wait changes the path (R201, R197). -/

namespace Sys2Proof.Machine

/-- Two outcomes alike in all but the waits. -/
inductive SameOutcome : Host.Outcome State Fault Refusal → Host.Outcome State Fault Refusal → Prop where
  | next {s s' : State} (h : SamePath s s') : SameOutcome (.next s) (.next s')
  | fault (r : Fault) : SameOutcome (.fault r) (.fault r)
  | refused (r : Refusal) : SameOutcome (.refused r) (.refused r)

/-- Operations that keep the relation do so one after the other. -/
theorem andThen_same {o o' : Host.Outcome State Fault Refusal} {f f' : State → Host.Outcome State Fault Refusal}
    (h : SameOutcome o o') (hf : ∀ {s s'}, SamePath s s' → SameOutcome (f s) (f' s')) :
    SameOutcome (andThen o f) (andThen o' f') := by
  cases h with
  | next h => exact hf h
  | fault r => exact .fault r
  | refused r => exact .refused r

theorem stepLut_same {s s' : State} (h : SamePath s s') : SameOutcome (stepLut s) (stepLut s') := by
  unfold stepLut
  rw [h.cfg, h.sp]
  split
  · exact .next (setSp_same _ (sendLut_same _ h))
  · exact .refused _

/-- The interpreter reads the same steps: SP does not depend on the waits. -/
theorem runRom_same (rom : List Byte) (fuel : Nat) {s s' : State} (h : SamePath s s') :
    SameOutcome (runRom rom fuel s) (runRom rom fuel s') := by
  induction fuel generalizing s s' with
  | zero => exact .refused _
  | succ fuel ih =>
    unfold runRom
    rw [h.sp]
    split
    · exact .refused _
    · exact .next (setSp_same 0 h)
    · exact ih (stepWrite_same _ _ h)
    · exact ih (stepWait_same h)
    · exact andThen_same (stepLut_same h) ih
    · exact .refused _

theorem runSequence_same (q : SeqId) {s s' : State} (h : SamePath s s') :
    SameOutcome (runSequence q s) (runSequence q s') := by
  unfold runSequence
  rw [h.cfg]
  exact runRom_same _ _ (setSp_same 0 h)

theorem runInitPhase_same {s s' : State} (h : SamePath s s') : SameOutcome (runInitPhase s) (runInitPhase s') :=
  andThen_same (runSequence_same .init h) fun h => .next (setPst_same .ready h)

theorem transferWrites_same (full : Bool) {s s' : State} (h : SamePath s s') :
    SamePath (transferWrites full s) (transferWrites full s') := by
  have hbw := sendPlane_same .bw h
  unfold transferWrites
  simp only [h.cfg]
  split
  · exact sendWrite_same _ _ (sendPlane_same .ac hbw)
  · exact sendWrite_same _ _ hbw

theorem runTransferRefresh_same (full : Bool) {s s' : State} (h : SamePath s s') :
    SameOutcome (runTransferRefresh full s) (runTransferRefresh full s') := by
  cases full with
  | true =>
    exact andThen_same (runSequence_same .fullPre h) fun h => .next (pace_same (transferWrites_same true h))
  | false => exact .next (pace_same (transferWrites_same false h))

theorem powerDown_same {s s' : State} (h : SamePath s s') : SamePath (powerDown s) (powerDown s') := by
  unfold powerDown
  rw [h.cfg]
  split
  · exact pace_same (sendWrite_same _ _ h)
  · exact h

theorem runDeepSleepPhase_same {s s' : State} (h : SamePath s s') :
    SamePath (runDeepSleepPhase s) (runDeepSleepPhase s') := by
  unfold runDeepSleepPhase
  rw [h.cfg]
  exact setPst_same .asleep (sendWrite_same _ _ (powerDown_same h))

theorem setFullEvery_same (n : Nat) {s s' : State} (h : SamePath s s') :
    SamePath (setFullEvery n s) (setFullEvery n s') := by
  unfold setFullEvery
  rw [h.cfg]
  split
  · exact { h with thr := rfl }
  · exact h

theorem fbWrite_same (a : Nat) (v : Byte) {s s' : State} (h : SamePath s s') :
    SamePath (fbWrite a v s) (fbWrite a v s') :=
  { h with fb := by rw [fbWrite_fb, fbWrite_fb, h.fb, h.fbInit] }

theorem fbRead_same {s s' : State} (h : SamePath s s') (a : Nat) : fbRead s' a = fbRead s a := by
  rw [fbRead, fbRead, h.fb, h.fbInit]

theorem fbFill_same (base : Nat) (v : Byte) (n : Nat) {s s' : State} (h : SamePath s s') :
    SamePath (fbFill base v n s) (fbFill base v n s') := by
  induction n with
  | zero => exact h
  | succ n ih => exact fbWrite_same _ _ ih

theorem fbFillPlanes_same (b0 b1 : Byte) {s s' : State} (h : SamePath s s') :
    SamePath (fbFillPlanes b0 b1 s) (fbFillPlanes b0 b1 s') := by
  have hbw := fbFill_same (planeBase s.cfg .bw) b0 (planeSize s.cfg) h
  unfold fbFillPlanes
  simp only [h.cfg]
  split
  · exact markFilled_same (fbFill_same _ _ _ hbw)
  · exact markFilled_same hbw

theorem writePixel_same (color x y : Nat) {s s' : State} (h : SamePath s s') :
    SamePath (writePixel color x y s) (writePixel color x y s') := by
  unfold writePixel
  simp only [h.cfg, fbRead_same h]
  exact fbWrite_same _ _ h

/-- A host operation keeps the relation: none looks at a sample, the time, TMO or the trace but its waits. -/
theorem exec_host_same {i : Instr} {s s' : State} (hf : i.format = .host) (h : SamePath s s') :
    SameOutcome (exec i s) (exec i s') := by
  cases i
  case setup => exact runInitPhase_same (setPst_same .awake (resetPulse_same h))
  case update =>
    have hfull : isFull s' = isFull s := by rw [isFull, isFull, h.cfg, h.cnt]
    rw [exec_update, exec_update, execUpdate, execUpdate, hfull]
    exact andThen_same (runTransferRefresh_same _ h) fun h => .next (countUpdate_same h)
  case shutdown => exact .next (runDeepSleepPhase_same h)
  case setFullEvery n => exact .next (setFullEvery_same _ h)
  case alwaysFull => exact .next (setFullEvery_same _ h)
  case setPixel x y color =>
    rw [exec_setPixel, exec_setPixel, execSetPixel, execSetPixel, h.cfg]
    split
    · exact .next (writePixel_same _ _ _ h)
    · exact .next h
  case fill color =>
    rw [exec_fill, exec_fill, execFill, execFill, h.cfg]
    exact .next (fbFillPlanes_same _ _ h)
  case clear =>
    rw [exec_clear, exec_clear, h.cfg]
    exact .next (fbFillPlanes_same _ _ h)
  case getWidth =>
    rw [exec_getWidth, exec_getWidth, h.cfg]
    exact .next (setResult_same _ h)
  case getHeight =>
    rw [exec_getHeight, exec_getHeight, h.cfg]
    exact .next (setResult_same _ h)
  case getType =>
    rw [exec_getType, exec_getType, h.cfg]
    exact .next (setResult_same _ h)
  case bufLen =>
    rw [exec_bufLen, exec_bufLen, h.cfg]
    exact .next (setResult_same _ h)
  case loadLut image => exact .next (sendLut_same image h)
  case hostReserved op => exact .next h
  all_goals cases hf

theorem accept_same (rest : List Byte) {s s' : State} (h : SamePath s s') : SamePath (accept rest s) (accept rest s') :=
  { h with hostIn := rfl, result := rfl }

/-- A step keeps the relation: both states hold the same port and so take the same command. -/
theorem step_same {s s' : State} (h : SamePath s s') : SameOutcome (step s) (step s') := by
  by_cases hwf : s.cfg.wellFormed = true
  · have hwf' : s'.cfg.wellFormed = true := by rw [h.cfg, hwf]
    have hport : decodeHost s'.cfg.colorBits s'.hostIn = decodeHost s.cfg.colorBits s.hostIn := by
      rw [h.cfg, h.hostIn]
    cases hcmd : decodeHost s.cfg.colorBits s.hostIn with
    | error e =>
      rw [step_of_not_decoded hwf hcmd, step_of_not_decoded hwf' (hport.trans hcmd)]
      exact .next h
    | ok command =>
      obtain ⟨i, rest⟩ := command
      rw [step_of_decoded hwf hcmd, step_of_decoded hwf' (hport.trans hcmd)]
      exact exec_host_same (decodeHost_format hcmd) (accept_same rest h)
  · have hwf' : ¬ s'.cfg.wellFormed = true := by rw [h.cfg]; exact hwf
    rw [step, step, if_neg hwf, if_neg hwf']
    exact .refused _

/-- Settles O18: the related outcome of a next state is a related next state. -/
theorem waitsDoNotChangeThePath : Obligations.WaitsDoNotChangeThePath := by
  intro s s' t h hstep
  have hsame := step_same h
  rw [hstep] at hsame
  generalize step s' = o at hsame
  cases hsame with
  | next hpath => exact ⟨_, rfl, hpath⟩

end Sys2Proof.Machine
end

section
/-! PROOFS. The phases and the host operations that run them (R185 to R195). -/

namespace Sys2Proof.Machine

/-- Settles O50: R195's guard on the operand's value is the operand being no zero word. -/
theorem setFullEverySetsTheThreshold : Obligations.SetFullEverySetsTheThreshold := by
  intro n s
  have hone : 1 ≤ n.toNat ↔ n ≠ 0#32 := by
    rw [Nat.one_le_iff_ne_zero, Ne, Ne, ← BitVec.toNat_inj, BitVec.toNat_zero]
  rw [exec_setFullEvery, setFullEvery_eq, setFullEvery_thr]
  simp only [hone]

/-- The Reset phase in closed form (R185). -/
theorem runResetPhase_eq (s : State) : runResetPhase s = { s with
      rstl := s.cfg.rstL0
      pst := .awake
      now := s.now + s.cfg.rstT1Ms + s.slack.headD 0 + resetHoldMs s.cfg + s.slack.tail.headD 0
      slack := s.slack.drop 2
      trace := s.trace ++ [.rst s.cfg.rstL0, .dly s.cfg.rstT1Ms, .rst s.cfg.rstL0.not, .dly (resetHoldMs s.cfg),
        .rst s.cfg.rstL0] } := by
  have hslack : s.slack.drop 2 = s.slack.tail.tail := by rw [← List.drop_one, ← List.drop_one, List.drop_drop]
  simp [runResetPhase, resetPulse, driveLine, delayFor, setPst, hslack]

/-- Settles O42: `resetHoldMs` is the override where there is one. -/
theorem resetPhasePulsesTheLine : Obligations.ResetPhasePulsesTheLine := by
  intro s
  rw [exec_resetPhase, runResetPhase_eq, resetHoldMs]
  cases s.cfg.rstOverrideMs <;> rfl

/-- Settles O44: the phases one after the other; the Initialize phase runs from PST = AWAKE, and so marks
nothing. -/
theorem setupResetsThenInitializes : Obligations.SetupResetsThenInitializes := by
  intro s hwf
  have hwf' : (runResetPhase s).cfg.wellFormed = true := by rw [(runResetPhase_effect s).cfg, hwf]
  obtain ⟨v, hv⟩ := runSequence_completes hwf' .init
  have hact := (runSequence_activity hv).1
  have hmark : v.fAsleep = s.fAsleep := by
    rw [hact.awake (by rw [(runResetPhase_phase s).pst]; decide), (runResetPhase_frame s).2.2.2.1]
  have hinit := runInitPhase_of_next hv
  obtain ⟨w, htrace, -⟩ := hact.events
  refine ⟨runResetPhase s, setPst .ready v, exec_resetPhase s, hinit, hinit, ⟨w, htrace.symm⟩,
    (runResetPhase_effect s |>.trans hact.toEffect).cs, ?_⟩
  have heq := runSequence_eq hv
  rw [hmark, runResetPhase_eq] at heq
  exact congrArg (setPst .ready) heq

/-- Settles O35: one clause per branch of `powerDown`; the write leaves the descriptor and the result. -/
theorem powerOffIsWrittenThenWaitedFor : Obligations.PowerOffIsWrittenThenWaitedFor := by
  intro s
  refine ⟨fun hnone => ?_, fun w hw => ?_⟩
  · rw [exec_panelPowerOff, powerDown, hnone]
  · have hact := sendWrite_activity w.cmd w.payload s
    obtain ⟨u, hu, hpace⟩ := exec_waitIdle_pace hact.cfg hact.result
    refine ⟨_, u, exec_sendWrite w.cmd w.payload s, hu, ?_⟩
    rw [exec_panelPowerOff, ← hpace]
    simp only [powerDown, hw, sendPanelWrite]

/-- Activity of the sequencer leaves the mark that the next transaction makes (R126). -/
theorem Activity.asleepAfterTransaction {s t : State} (h : Activity s t) :
    asleepAfterTransaction t = asleepAfterTransaction s := by
  unfold Machine.asleepAfterTransaction
  rw [h.pst]
  by_cases hp : s.pst = .asleep
  · simp [hp]
  · rw [h.awake hp]

theorem powerDown_sent (s : State) : Sent s (powerDown s) := by
  unfold powerDown
  split
  · exact (sendWrite_sent _ _ s).trans (pace_waited _).sent
  · exact ⟨.refl s, rfl⟩

/-- The Deep Sleep phase after the power-off, in closed form (R191). -/
theorem runDeepSleepPhase_eq (s : State) : runDeepSleepPhase s = { powerDown s with
      fAsleep := s.fAsleep || decide (s.pst = .asleep)
      cs := .deasserted
      dc := if s.cfg.sleep.payload = [] then .low else .high
      pst := .asleep
      trace := (powerDown s).trace ++ .c s.cfg.sleep.cmd :: s.cfg.sleep.payload.map .d } := by
  rw [runDeepSleepPhase, sendPanelWrite, sendWrite_eq, (powerDown_activity s).asleepAfterTransaction, setPst,
    asleepAfterTransaction]

/-- Settles O49. -/
theorem deepSleepEndsWithTheSleepCommand : Obligations.DeepSleepEndsWithTheSleepCommand := by
  intro s
  exact ⟨powerDown s, exec_panelPowerOff s, rfl, by rw [exec_deepSleepPhase, runDeepSleepPhase_eq],
    (powerDown_sent s).eq_update (powerDown_sp s)⟩

/-! ### Transfer & Refresh and UPDATE (R188, R189, R190, R193) -/

/-- The partial path (R188). -/
theorem runTransferRefresh_partial (s : State) :
    runTransferRefresh false s = .next (pace (transferWrites false s)) := rfl

/-- The full path, once FULL_PRE has run (R188). -/
theorem runTransferRefresh_full {s u : State} (h : runSequence .fullPre s = .next u) :
    runTransferRefresh true s = .next (pace (transferWrites true u)) := by
  rw [runTransferRefresh, if_pos rfl, h]
  rfl

/-- Settles O45: the partial path is its writes, which leave the descriptor and the result, then one wait. -/
theorem partialTransferSendsPlaneZero : Obligations.PartialTransferSendsPlaneZero := by
  intro s
  have hact := transferWrites_activity false s
  obtain ⟨u, hu, hpace⟩ := exec_waitIdle_pace hact.cfg hact.result
  refine ⟨transferWrites false s, u, ?_, hu, ?_⟩
  · rw [transferWrites_eq, Bool.false_and, if_neg Bool.false_ne_true, List.append_nil]
  · rw [exec_transferRefresh, runTransferRefresh_partial, hpace]

/-- Settles O46: FULL_PRE is the sequencer's activity, so the writes after it send the FB of before. -/
theorem fullTransferReinitializesAndSendsEveryPlane : Obligations.FullTransferReinitializesAndSendsEveryPlane := by
  intro s hwf
  obtain ⟨u, hu⟩ := runSequence_completes hwf .fullPre
  obtain ⟨hseq, hsp⟩ := runSequence_activity hu
  have hact := hseq.trans (transferWrites_activity true u)
  obtain ⟨v, hv, hpace⟩ := exec_waitIdle_pace hact.cfg hact.result
  refine ⟨u, transferWrites true u, v, hu, ?_, hv, ?_⟩
  · have hmark : (u.fAsleep || decide (u.pst = .asleep)) = (s.fAsleep || decide (s.pst = .asleep)) :=
      hseq.asleepAfterTransaction
    have hread (a : Nat) : fbRead u a = fbRead s a := by rw [fbRead, fbRead, hseq.fb, hseq.fbInit]
    rw [transferWrites_eq, hmark]
    simp only [hread, hseq.cfg, Bool.true_and, hsp, hseq.fb, hseq.fbInit, hseq.fbFilled, hseq.cnt, hseq.thr, hseq.pst,
      (runSequence_sent hu).rstl, hseq.hostIn, hseq.result]
  · rw [exec_transferRefresh, runTransferRefresh_full hu, hpace]

/-- The counter an UPDATE leaves is counted from the one it found (R190, D26). -/
theorem execUpdate_of_next {s t : State} (h : runTransferRefresh (isFull s) s = .next t) :
    execUpdate s = .next { t with cnt := nextCount s } := by
  have hact := (runTransferRefresh_activity h).1
  have hnext : nextCount t = nextCount s := by rw [nextCount, nextCount, hact.cfg, hact.cnt, hact.thr]
  rw [execUpdate, h, ← hnext]
  rfl

/-- Settles O47. -/
theorem updateTransfersThenCounts : Obligations.UpdateTransfersThenCounts := by
  intro s hwf
  obtain ⟨t, ht⟩ := runTransferRefresh_completes hwf (isFull s)
  have hfull : isFull s = (!s.cfg.counterBased || s.cnt == 0) := by rw [isFull, beq_eq_decide]
  refine ⟨t, ?_, ?_⟩
  · rw [exec_transferRefresh, ← hfull, ht]
  · rw [exec_update, execUpdate_of_next ht, nextCount]

/-- An UPDATE on a counter-based model: it completes, and counts modulo the threshold, which stays. -/
theorem exec_update_counts {s : State} (hwf : s.cfg.wellFormed = true) (hc : s.cfg.counterBased = true) :
    ∃ t, exec .update s = .next t ∧ t.cfg = s.cfg ∧ t.thr = s.thr ∧ t.cnt = (s.cnt + 1) % s.thr := by
  obtain ⟨t, ht⟩ := runTransferRefresh_completes hwf (isFull s)
  have hact := (runTransferRefresh_activity ht).1
  exact ⟨_, (exec_update s).trans (execUpdate_of_next ht), hact.cfg, hact.thr, if_pos hc⟩

/-- `k` UPDATEs from CNT = 0 complete, and leave the counter at `k` modulo the threshold (R198 a). -/
theorem runUpdates_counts (k : Nat) {s : State} (hwf : s.cfg.wellFormed = true) (hc : s.cfg.counterBased = true)
    (hcnt : s.cnt = 0) :
    ∃ t, runUpdates k s = .next t ∧ t.cfg = s.cfg ∧ t.thr = s.thr ∧ t.cnt = k % s.thr := by
  induction k with
  | zero => exact ⟨s, rfl, rfl, rfl, by rw [hcnt, Nat.zero_mod]⟩
  | succ k ih =>
    obtain ⟨t, ht, htcfg, htthr, htcnt⟩ := ih
    obtain ⟨u, hu, hucfg, huthr, hucnt⟩ := exec_update_counts (s := t) (by rw [htcfg, hwf]) (by rw [htcfg, hc])
    refine ⟨u, by rw [runUpdates, ht]; exact hu, hucfg.trans htcfg, huthr.trans htthr, ?_⟩
    rw [hucnt, htthr, htcnt, Nat.mod_add_mod]

/-- Settles O48: the counter after `k` UPDATEs, which is 0 exactly when the next one is full. -/
theorem counterIsUpdatesModThreshold : Obligations.CounterIsUpdatesModThreshold := by
  intro k s hwf hc _ hcnt
  obtain ⟨t, ht, htcfg, htthr, htcnt⟩ := runUpdates_counts k hwf hc hcnt
  refine ⟨t, ht, htcnt, htthr, ?_⟩
  rw [isFull, htcfg, hc, htcnt, Bool.not_true, Bool.false_or, decide_eq_true_eq]

/-! ### A sleeping panel (R126, R293, D39) -/

/-- A register write to a sleeping panel is marked. -/
theorem sendWrite_marks (c : Byte) (l : List Byte) {s : State} (h : s.pst = .asleep) :
    (sendWrite c l s).fAsleep = true := by
  rw [sendWrite_eq]
  simp [asleepAfterTransaction, h]

/-- A Transfer & Refresh to a sleeping panel is marked, by its last write at the latest. -/
theorem runTransferRefresh_marks {full : Bool} {s t : State} (hp : s.pst = .asleep)
    (h : runTransferRefresh full s = .next t) : t.fAsleep = true := by
  have marks (b : Bool) {u : State} (hu : u.pst = .asleep) : (pace (transferWrites b u)).fAsleep = true := by
    rw [(pace_waited _).fAsleep, transferWrites_eq]
    simp [hu]
  cases full with
  | false => cases h; exact marks false hp
  | true =>
    obtain ⟨u, hu, h⟩ := andThen_next h
    cases h
    exact marks true (by rw [(runSequence_activity hu).1.pst, hp])

/-- Settles O22: each of the three sends at least one command after which the mark stays, and SETUP's Reset
phase makes the panel AWAKE before anything is sent. -/
theorem trafficToASleepingPanelIsMarked : Obligations.TrafficToASleepingPanelIsMarked := by
  intro s image hwf hp
  refine ⟨?update, ⟨_, exec_shutdown s, ?_⟩, fun hlut => ⟨_, exec_loadLut image s, ?_⟩, ?setup⟩
  case update =>
    obtain ⟨t, ht⟩ := runTransferRefresh_completes hwf (isFull s)
    exact ⟨_, (exec_update s).trans (execUpdate_of_next ht), (runTransferRefresh_marks hp ht : t.fAsleep = true)⟩
  case setup =>
    obtain ⟨t, ht⟩ := execSetup_completes hwf
    obtain ⟨hphase, hmark⟩ := execSetup_phase ht
    exact ⟨t, ht, hmark, hphase.pst⟩
  · rw [runDeepSleepPhase_eq, hp, decide_eq_true rfl, Bool.or_true]
  · obtain ⟨c, hc⟩ := Option.ne_none_iff_exists'.mp hlut
    rw [sendLut, hc]
    exact sendWrite_marks c image hp

end Sys2Proof.Machine
end

section
/-! PROOFS. The bus, time and the pins (R120 to R127, R14). -/

namespace Sys2Proof.Machine

/-- Settles O24: the closed form of `sendWrite`. -/
theorem registerWriteIsCommandThenData : Obligations.RegisterWriteIsCommandThenData := by
  intro c l s
  rw [exec_sendWrite, sendWrite_eq, asleepAfterTransaction]

/-- A delay that does not overshoot (R14, D3). -/
theorem delayFor_of_reference {s : State} (d : Nat) (h : s.slack = []) :
    delayFor d s = { s with now := s.now + d, trace := s.trace ++ [.dly d] } := by
  rw [delayFor, h, List.headD_nil, List.tail_nil, Nat.add_zero, ← h]

/-- Settles O25. -/
theorem delayAdvancesTime : Obligations.DelayAdvancesTime := by
  intro d s
  refine ⟨by rw [exec_delay, delayFor], fun h => ?_⟩
  rw [exec_delay, delayFor_of_reference d h]

/-- A sample that the environment has listed (R123, log 5). -/
theorem afterSample_of_listed {s : State} {v : Level} {later : List Level} (h : s.busyIn = v :: later) :
    busyNow s = v ∧ afterSample s = { s with busyIn := later, trace := s.trace ++ [.poll v] } := by
  have hv : busyNow s = v := by rw [busyNow, h, List.headD_cons]
  refine ⟨hv, ?_⟩
  rw [afterSample, hv, h, List.tail_cons, if_neg (List.cons_ne_nil v later)]

/-- Settles O27: the level is `busyNow`, read once. -/
theorem busySampleIsOneRead : Obligations.BusySampleIsOneRead := by
  intro s
  refine ⟨fun hpin => ?_, fun hpin => ?_⟩
  · refine ⟨busyNow s, setResult (.level (busyNow s)) (afterSample s), if_pos hpin, rfl, fun listed later h => ?_⟩
    obtain ⟨hv, hs⟩ := afterSample_of_listed h
    exact ⟨hv, by rw [setResult_busyIn, hs], by rw [setResult_busyTaken, hs]⟩
  · rw [exec_sampleBusy, execSampleBusy, if_neg (by rw [hpin]; exact Bool.false_ne_true)]

/-- WAITIDLE with a pin is the poll loop (R124). -/
theorem exec_waitIdle_of_pin {s : State} (n : Nat) (hpin : s.cfg.hasBusyPin = true) :
    exec (.waitIdle n) s =
      .next (setResult (.wait (pollLoop n s.now (n + 1) s).1) (pollLoop n s.now (n + 1) s).2) := by
  rw [exec_waitIdle, waitUntilIdle, if_pos hpin]

/-- Settles O31. -/
theorem waitWithoutAPinIsOneDelay : Obligations.WaitWithoutAPinIsOneDelay := by
  intro s timeout hpin
  rw [exec_waitIdle, waitUntilIdle, if_neg (by rw [hpin]; exact Bool.false_ne_true), delayFor, setResult]

/-! ### The poll loop with listed samples, in the reference reading (R127 a, b, c) -/

/-- The number of delays until `t` ms have passed is the least one that reaches `t`. -/
theorem pollCount_le_iff {p : Nat} (hp : 1 ≤ p) (t k : Nat) : (t + p - 1) / p ≤ k ↔ t ≤ p * k := by
  rw [← Nat.ceilDiv_eq_add_pred_div, ceilDiv_le_iff_le_mul hp]

/-- `n` busy samples with a delay after each, then one more sample, which reads `v`. -/
def polledThen (n : Nat) (v : Level) (s : State) : State :=
  { polled n s with busyIn := s.busyIn.drop (n + 1), trace := (polled n s).trace ++ [.poll v] }

theorem polledThen_now (n : Nat) (v : Level) (s : State) : (polledThen n v s).now = s.now + s.cfg.pollMs * n := rfl

/-- The sample after `n` rounds is the next one listed. -/
theorem sample_polled {n : Nat} {v : Level} {s : State} (h : s.busyIn[n]? = some v) :
    busyNow (polled n s) = v ∧ afterSample (polled n s) = polledThen n v s := by
  obtain ⟨hlt, rfl⟩ := List.getElem?_eq_some_iff.mp h
  exact afterSample_of_listed (s := polled n s) (List.drop_eq_getElem_cons hlt)

/-- The loop of WAITIDLE up to the sample that ends it: the `n` samples before it are busy and early. -/
theorem pollLoop_of_busy {timeout n : Nat} {s : State} (hs : s.slack = []) (hn : n ≤ timeout)
    (hbusy : ∀ k, k < n → s.busyIn[k]? = some s.cfg.busyActive) (hearly : ∀ k, k < n → s.cfg.pollMs * k < timeout) :
    pollLoop timeout s.now (timeout + 1) s = pollLoop timeout s.now (timeout - n + 1) (polled n s) := by
  have hfuel : timeout + 1 = n + (timeout - n + 1) := by omega
  rw [hfuel, pollLoop_polled timeout s.now n _ s hs le_rfl hbusy]
  intro k hk
  have := hearly k hk
  omega

/-- Settles O28: the samples are busy until the first one not before `t`, which ends the loop. -/
theorem waitEndsWhenThePanelGoesIdle : Obligations.WaitEndsWhenThePanelGoesIdle := by
  intro s timeout t pin hpin hpoll hs ht hbusy hidle hlisted
  have hcount := pollCount_le_iff hpoll t
  generalize hn : (t + s.cfg.pollMs - 1) / s.cfg.pollMs = n at hcount
  have hreach : t ≤ s.cfg.pollMs * n := (hcount n).mp le_rfl
  have hle : n ≤ t := (hcount t).mpr (Nat.le_mul_of_pos_left t hpoll)
  have hearly (k : Nat) (hk : k < n) : s.cfg.pollMs * k < t := by
    have := mt (hcount k).mpr (by omega)
    omega
  have hsamples (k : Nat) (hk : k < n) : s.busyIn[k]? = some s.cfg.busyActive := by
    rw [hlisted k (by omega), hbusy _ (hearly k hk)]
  obtain ⟨hv, hafter⟩ := sample_polled (hlisted n (by omega))
  have hloop : pollLoop timeout s.now (timeout + 1) s = (.ok, polledThen n (pin (s.now + s.cfg.pollMs * n)) s) := by
    rw [pollLoop_of_busy hs (by omega) hsamples fun k hk => (hearly k hk).trans_le ht, pollLoop,
      if_pos (by rw [hv]; exact hidle _ hreach), hafter]
  exact ⟨n, rfl, by rw [exec_waitIdle_of_pin timeout hpin, hloop, setResult, polledThen, polled]⟩

/-- Settles O29: every sample is busy, so the first one at the deadline or past it ends the loop. -/
theorem waitTimesOutOnABusyPanel : Obligations.WaitTimesOutOnABusyPanel := by
  intro s timeout hpin hpoll hs hlisted
  have hcount := pollCount_le_iff hpoll timeout
  generalize hn : (timeout + s.cfg.pollMs - 1) / s.cfg.pollMs = n at hcount
  have hreach : timeout ≤ s.cfg.pollMs * n := (hcount n).mp le_rfl
  have hle : n ≤ timeout := (hcount timeout).mpr (Nat.le_mul_of_pos_left timeout hpoll)
  have hearly (k : Nat) (hk : k < n) : s.cfg.pollMs * k < timeout := by
    have := mt (hcount k).mpr (by omega)
    omega
  obtain ⟨hv, hafter⟩ := sample_polled (hlisted n hle)
  have hdeadline : timeout ≤ (polledThen n s.cfg.busyActive s).now - s.now := by
    rw [polledThen_now]
    omega
  have hloop : pollLoop timeout s.now (timeout + 1) s =
      (.fail, recordTimeout (polledThen n s.cfg.busyActive s)) := by
    rw [pollLoop_of_busy hs hle (fun k hk => hlisted k (by omega)) hearly, pollLoop, hafter,
      if_neg (by rw [hv]; exact fun hne => hne rfl), if_pos hdeadline]
  exact ⟨n, rfl, hreach,
    by rw [exec_waitIdle_of_pin timeout hpin, hloop, setResult, recordTimeout, polledThen, polled]⟩

/-! ### The poll loop with any samples and any delays (R124, R127 d) -/

/-- What the poll loop answers from `s`: a failure is a timeout and is not early, a success leaves TMO, in the
reference reading it ends less than one delay past the deadline, and it adds samples and delays alone. -/
structure PollOutcome (t t0 : Nat) (s : State) (o : WaitResult × State) : Prop where
  fail : o.1 = .fail → o.2.tmo = true ∧ t0 + t ≤ o.2.now
  ok : o.1 = .ok → o.2.tmo = s.tmo
  bound : s.slack = [] → s.now < t0 + t + s.cfg.pollMs → o.2.now < t0 + t + s.cfg.pollMs
  events : ∃ w : List Event, o.2.trace = s.trace ++ w ∧ ∀ e ∈ w, e = .dly s.cfg.pollMs ∨ ∃ v, e = .poll v

/-- One round of the loop: a busy sample before the deadline, and a delay. -/
theorem PollOutcome.round {t t0 : Nat} {s : State} {o : WaitResult × State} (hearly : s.now < t0 + t)
    (h : PollOutcome t t0 (delayFor s.cfg.pollMs (afterSample s)) o) : PollOutcome t t0 s o where
  fail := h.fail
  ok := h.ok
  bound hs _ := by
    refine h.bound (by simp [hs]) ?_
    simp only [delayFor_now, afterSample_now, delayFor_cfg, afterSample_cfg, afterSample_slack, hs, List.headD_nil]
    omega
  events := by
    obtain ⟨w, hw, hevents⟩ := h.events
    refine ⟨.poll (busyNow s) :: .dly s.cfg.pollMs :: w, ?_, ?_⟩
    · rw [hw, delayFor_trace, afterSample_trace, List.append_assoc, List.append_assoc]
      rfl
    · intro e he
      rw [List.mem_cons, List.mem_cons] at he
      obtain rfl | rfl | he := he
      exacts [.inr ⟨_, rfl⟩, .inl rfl, hevents e he]

/-- The fuel `t + 1` outlasts the deadline, as each round takes at least one millisecond (log 19). -/
theorem pollLoop_outcome {t t0 fuel : Nat} {s : State} (hpoll : 1 ≤ s.cfg.pollMs) (h0 : t0 ≤ s.now)
    (hfuel : t0 + t < s.now + fuel) : PollOutcome t t0 s (pollLoop t t0 fuel s) := by
  induction fuel generalizing s with
  | zero => exact ⟨fun _ => ⟨rfl, by rw [pollLoop, recordTimeout_now]; omega⟩, nofun, fun _ => id,
      [], (List.append_nil _).symm, nofun⟩
  | succ fuel ih =>
    have hsample : ∀ e ∈ [Event.poll (busyNow s)], e = .dly s.cfg.pollMs ∨ ∃ v, e = .poll v :=
      fun e he => .inr ⟨_, List.mem_singleton.mp he⟩
    unfold pollLoop
    split
    · exact ⟨nofun, fun _ => rfl, fun _ => id, _, rfl, hsample⟩
    · split
      · rename_i hdeadline
        rw [afterSample_now] at hdeadline
        exact ⟨fun _ => ⟨rfl, by rw [recordTimeout_now, afterSample_now]; omega⟩, nofun, fun _ => id, _, rfl, hsample⟩
      · rename_i hdeadline
        rw [afterSample_now] at hdeadline
        refine .round (by omega) (ih hpoll ?_ ?_)
        · rw [delayFor_now, afterSample_now]
          omega
        · rw [delayFor_now, afterSample_now]
          omega

/-- A wait may change nothing but TMO, the time, the trace and the environment's inputs. -/
theorem Waited.eq_update {s t : State} (h : Waited s t) :
    t = { s with
      tmo := t.tmo, now := t.now, trace := t.trace
      busyIn := t.busyIn, busyTaken := t.busyTaken, slack := t.slack } := by
  have heq := h.sent.eq_update h.sp
  rwa [h.fAsleep, h.cs, h.dc] at heq

/-- Settles O30: what the poll loop can do, from its first round, and that a wait changes nothing else. -/
theorem waitIsBoundedAndNeverEarly : Obligations.WaitIsBoundedAndNeverEarly := by
  intro s timeout hpin hpoll
  have hout : PollOutcome timeout s.now s (pollLoop timeout s.now (timeout + 1) s) :=
    pollLoop_outcome hpoll le_rfl (by omega)
  have heq := (pollLoop_waited timeout s.now (timeout + 1) s).eq_update
  generalize hloop : pollLoop timeout s.now (timeout + 1) s = o at hout heq
  refine ⟨setResult (.wait o.1) o.2, o.1, by rw [exec_waitIdle_of_pin timeout hpin, hloop], rfl, hout.fail, hout.ok,
    fun hs => ?_, hout.events, congrArg (setResult (.wait o.1)) heq⟩
  have := hout.bound hs (by omega)
  rw [setResult_now]
  omega

end Sys2Proof.Machine
end

section
/-! PROOFS. Panel commands, the absent plane and LOADLUT (R95, R187, R235). -/

namespace Sys2Proof.Machine

/-- Settles O33: both rows ask for a plane that is not there. -/
theorem absentPlaneFaults : Obligations.AbsentPlaneFaults := by
  intro s hacc
  have habsent : execXferPlane .ac s = .fault .framebufferAddressAbsent :=
    if_neg (by rw [planePresent, hacc]; exact Bool.false_ne_true)
  exact ⟨habsent, habsent⟩

/-- A descriptor field's write in closed form (R95). -/
theorem sendPanelWrite_eq (w : PanelWrite) (s : State) : sendPanelWrite w s = { s with
      fAsleep := s.fAsleep || decide (s.pst = .asleep)
      cs := .deasserted
      dc := if w.payload = [] then .low else .high
      trace := s.trace ++ .c w.cmd :: w.payload.map .d } := by
  rw [sendPanelWrite, sendWrite_eq, asleepAfterTransaction]

/-- Settles O34: the meanings are the shared operations, and each frame is the field's command frame. -/
theorem panelCommandsSendTheirField : Obligations.PanelCommandsSendTheirField := by
  intro s image
  refine ⟨rfl, ⟨_, exec_panelRamBw s⟩, rfl, fun hacc => ⟨sendPlane .ac s, ?_⟩, ?_, ?_, rfl, ⟨_, exec_panelLutWrite image s⟩,
    rfl, rfl, rfl, rfl, fun w hw => ?_, fun b hb => ?_⟩
  · rw [exec_panelRamAc]
    exact execXferPlane_of_present (p := .ac) hacc
  · rw [exec_panelRefresh, sendPanelWrite_eq]
  · rw [exec_panelSleep, sendPanelWrite_eq]
  · simp only [encode, hw]
  · simp only [encode, hb]

/-- Settles O60: a write of the image, which is not empty. -/
theorem loadLutSendsTheWholeImage : Obligations.LoadLutSendsTheWholeImage := by
  intro image s hlen
  refine ⟨fun hnone => ?_, fun c hc => ?_⟩
  · simp only [exec_loadLut, sendLut, hnone]
  · have hne : image ≠ [] := List.ne_nil_of_length_pos (by omega)
    simp only [exec_loadLut, sendLut, hc]
    rw [sendWrite_eq, if_neg hne, asleepAfterTransaction]

end Sys2Proof.Machine
end

section
/-! PROOFS. The framebuffer operations and the getters (R61 to R65, R150 to R159). -/

namespace Sys2Proof.Machine

/-- The first byte of the plane a pixel goes to (R61, R150). -/
theorem planeBase_pixelTarget (c : Config) (k : ColorClass) :
    planeBase c (pixelTarget c k).1 = if k = .ac ∧ c.hasAccent = true then planeSize c else 0 := by
  cases k <;> cases h : c.hasAccent <;> simp [pixelTarget, h, planeBase_bw, planeBase_ac]

/-- The bit a pixel gets (R150). -/
theorem pixelTarget_bit (c : Config) (k : ColorClass) :
    (pixelTarget c k).2 =
      if k = .ac ∧ c.hasAccent = true then c.acBit else if k = .bg then !c.fgBit else c.fgBit := by
  cases k <;> cases h : c.hasAccent <;> simp [pixelTarget, h]

theorem bitPos_eq (c : Config) (x : Nat) : bitPos c x = if c.bitOrder = .msbFirst then 7 - x % 8 else x % 8 := by
  unfold bitPos
  cases c.bitOrder <;> rfl

/-- A pixel's write sets one bit of one byte (R150, R158). -/
theorem fbRead_writePixel (color x y : Nat) (s : State) (a : Nat) {i : Nat} (hi : i < 8) :
    (fbRead (writePixel color x y s) a).getLsbD i =
      if a = pixelAddr s.cfg (pixelTarget s.cfg (classOf s.cfg color)).1 x y ∧ i = bitPos s.cfg x
      then (pixelTarget s.cfg (classOf s.cfg color)).2 else (fbRead s a).getLsbD i := by
  rw [writePixel, fbRead_fbWrite]
  by_cases ha : pixelAddr s.cfg (pixelTarget s.cfg (classOf s.cfg color)).1 x y = a
  · rw [if_pos ha, replaceBit_getLsbD _ _ (bitPos_lt _ _) hi, ha]
    simp only [true_and]
  · rw [if_neg ha, if_neg fun h => ha h.1.symm]

/-- Settles O51: the pixel is in bounds, so SETPIXEL is `writePixel`, which sets one bit. -/
theorem setPixelSetsOneBit : Obligations.SetPixelSetsOneBit := by
  intro x y color s hx hx' hy hy'
  have hin : inBounds s.cfg (coord x) (coord y) = true := decide_eq_true ⟨hx, hx', hy, hy'⟩
  refine ⟨writePixel color x.toInt.toNat y.toInt.toNat s, ?_, writePixel_eq _ _ _ s, fun a i hi => ?_⟩
  · rw [exec_setPixel, execSetPixel, if_pos hin, coord, coord]
  · rw [fbRead_writePixel color _ _ s a hi, pixelAddr, planeBase_pixelTarget, pixelTarget_bit, bitPos_eq, stride, ceil8]

/-! ### Places (R61 to R64, R159) -/

/-- Two columns with one bit position in bytes with one number are the same (R63). -/
theorem column_inj {c : Config} {x z : Nat} (hbyte : x / 8 = z / 8) (hbit : bitPos c x = bitPos c z) : x = z := by
  rw [bitPos_eq, bitPos_eq] at hbit
  split at hbit <;> omega

/-- A byte of a row and a row determine each other's number (R62). -/
theorem rowByte_inj {w i j y y' : Nat} (hi : i < w) (hj : j < w) (h : y * w + i = y' * w + j) : y = y' ∧ i = j := by
  have hw : 0 < w := by omega
  obtain ⟨hdiv, hmod⟩ := (Nat.div_mod_unique hw).mpr ⟨(by ring : i + w * y = y * w + i), hi⟩
  obtain ⟨hdiv', hmod'⟩ := (Nat.div_mod_unique hw).mpr ⟨(by ring : j + w * y' = y' * w + j), hj⟩
  rw [h] at hdiv hmod
  exact ⟨hdiv.symm.trans hdiv', hmod.symm.trans hmod'⟩

theorem column_byte_lt {c : Config} {x : Nat} (h : x < 8 * stride c) : x / 8 < stride c := by omega

theorem width_le_stride (c : Config) : c.width ≤ 8 * stride c := by
  unfold stride ceil8
  omega

/-- Two columns of a plane, padding included, share a place only when they are the same (R62, R63, R64). -/
theorem place_inj {c : Config} {p : Plane} {x z y y' : Nat} (hx : x < 8 * stride c) (hz : z < 8 * stride c)
    (haddr : pixelAddr c p x y = pixelAddr c p z y') (hbit : bitPos c x = bitPos c z) : x = z ∧ y = y' := by
  unfold pixelAddr at haddr
  have hrow : y * stride c + x / 8 = y' * stride c + z / 8 := by omega
  obtain ⟨hy, hbyte⟩ := rowByte_inj (column_byte_lt hx) (column_byte_lt hz) hrow
  exact ⟨column_inj hbyte hbit, hy⟩

/-- A pixel's place inside its plane (R159). -/
theorem pixel_offset_lt {c : Config} {x y : Nat} (hx : x < c.width) (hy : y < c.height) :
    y * stride c + x / 8 < planeSize c := by
  have hbyte := column_byte_lt (hx.trans_le (width_le_stride c))
  calc y * stride c + x / 8 < (y + 1) * stride c := by rw [Nat.succ_mul]; omega
    _ ≤ c.height * stride c := Nat.mul_le_mul_right _ hy
    _ = planeSize c := Nat.mul_comm _ _

/-- A plane that exists lies in the framebuffer (R21, R61). -/
theorem plane_within_bufLength {c : Config} {p : Plane} (h : planePresent c p = true) :
    planeBase c p + planeSize c ≤ bufLength c := by
  rw [bufLength_eq]
  cases p with
  | bw => rw [planeBase_bw]; split <;> omega
  | ac => rw [planeBase_ac, if_pos (show c.hasAccent = true from h)]; omega

/-- Settles O53: rows, bytes and bit positions determine the pixel, and a padding column is none of the
panel's. -/
theorem distinctPixelsHaveDistinctBits : Obligations.DistinctPixelsHaveDistinctBits := by
  intro c p x y x' y' hp hx hy hx' hy'
  have hwidth := width_le_stride c
  have hoffset := pixel_offset_lt hx hy
  have hplane := plane_within_bufLength hp
  have haddr : pixelAddr c p x y = planeBase c p + (y * stride c + x / 8) := Nat.add_assoc _ _ _
  refine ⟨fun ha hb => place_inj (by omega) (by omega) ha hb, by omega, by omega, by omega, bitPos_lt c x, ?_⟩
  rintro z hz hz' ⟨ha, hb⟩
  obtain ⟨hxz, -⟩ := place_inj (p := p) (y' := y') (by omega) hz' ha hb
  omega

/-! ### FILL, CLEAR and the getters -/

/-- Plane 0's byte of a FILL (R151). -/
theorem fillBytes_bw (c : Config) (k : ColorClass) : (fillBytes c k).1 =
    if k = .bg ∨ (k = .ac ∧ c.hasAccent = true) then rep8 (!c.fgBit) else rep8 c.fgBit := by
  cases k <;> cases h : c.hasAccent <;> simp [fillBytes, h]

/-- Plane 1's byte of a FILL, on a panel that has plane 1 (R151). -/
theorem fillBytes_ac {c : Config} (k : ColorClass) (h : c.hasAccent = true) :
    (fillBytes c k).2 = if k = .ac then rep8 c.acBit else rep8 (!c.acBit) := by
  cases k <;> simp [fillBytes, h]

/-- Settles O54: what filling the planes leaves, with FILL's two bytes. -/
theorem fillWritesEveryByte : Obligations.FillWritesEveryByte := by
  intro color s
  refine ⟨_, exec_fill color s, fbFillPlanes_eq _ _ s, fun a => ?_⟩
  rw [fbRead_fbFillPlanes, fillBytes_bw]
  by_cases hacc : s.cfg.hasAccent = true
  · rw [fillBytes_ac _ hacc]
  · simp [hacc]

/-- Settles O55: what filling the planes leaves, with the idle patterns. -/
theorem clearWritesTheIdlePatterns : Obligations.ClearWritesTheIdlePatterns := by
  intro s
  exact ⟨_, exec_clear s, fbFillPlanes_eq _ _ s, fbRead_fbFillPlanes s _ _⟩

/-- The largest framebuffer of a well-formed descriptor: two planes of 4096 by 32767 bytes (R11, R104). -/
theorem bufLength_le {c : Config} (hw : c.width ≤ 32767) (hh : c.height ≤ 32767) : bufLength c ≤ 4096 * 32767 * 2 := by
  have hstride : stride c ≤ 4096 := by
    unfold stride ceil8
    omega
  have hplane : planeSize c ≤ 4096 * 32767 := Nat.mul_le_mul hstride hh
  rw [bufLength_eq]
  split <;> omega

/-- A number that fits its result word is returned whole (R104). -/
theorem toNat_ofNat_of_lt {w n : Nat} (h : n < 2 ^ w) : (BitVec.ofNat w n).toNat = n := by
  rw [BitVec.toNat_ofNat, Nat.mod_eq_of_lt h]

/-- Settles O56: R11's bounds keep every result within its word. -/
theorem gettersReturnTheDescriptor : Obligations.GettersReturnTheDescriptor := by
  intro s hwf
  obtain ⟨⟨-, hw⟩, ⟨-, hh⟩, -⟩ := (wellFormed_iff s.cfg).mp hwf
  have hbuf := bufLength_le hw hh
  refine ⟨⟨_, exec_getWidth s, toNat_ofNat_of_lt (by omega)⟩, ⟨_, exec_getHeight s, toNat_ofNat_of_lt (by omega)⟩,
    ⟨_, exec_getType s, ?_⟩, ⟨_, exec_bufLen s, (toNat_ofNat_of_lt (by omega)).trans rfl⟩⟩
  rw [displayType]
  split <;> rfl

end Sys2Proof.Machine
end

section
/-! PROOFS. The waveform LUT's image: where every field lies, and the two round trips (R231 to R234). -/

namespace Sys2Proof.Machine

/-! ### The fields of an image as numbers (R233) -/

theorem unpackVs_eq (img : List Byte) (v g : Nat) {ph : Nat} (h : ph < 4) :
    unpackVs img v g ph = (imageByte img (12 * v + g)).toNat / 4 ^ (3 - ph) % 4 := by
  have hmask (b : Byte) : (b &&& 3#8).toNat = b.toNat % 4 := mask_toNat b 2 (by decide)
  have hshift : 2 ^ (6 - 2 * ph) = 4 ^ (3 - ph) := by
    interval_cases ph <;> rfl
  rw [unpackVs, hmask, BitVec.toNat_ushiftRight, Nat.shiftRight_eq_div_pow, hshift]

theorem unpackFr_eq (img : List Byte) (g : Nat) :
    unpackFr img g = (imageByte img (144 + g / 2)).toNat / 16 ^ (1 - g % 2) % 16 := by
  have hmask (b : Byte) : (b &&& 15#8).toNat = b.toNat % 16 := mask_toNat b 4 (by decide)
  have hshift : 2 ^ (if g % 2 = 0 then 4 else 0) = 16 ^ (1 - g % 2) := by
    obtain h | h := Nat.mod_two_eq_zero_or_one g <;> rw [h] <;> rfl
  rw [unpackFr, hmask, BitVec.toNat_ushiftRight, Nat.shiftRight_eq_div_pow, hshift]

theorem unpackNs_eq (img : List Byte) (j : Nat) :
    unpackNs img j = (imageByte img (150 + j / 8)).toNat / 2 ^ (7 - j % 8) % 2 := by
  have hmask (b : Byte) : (b &&& 1#8).toNat = b.toNat % 2 := mask_toNat b 1 (by decide)
  rw [unpackNs, hmask, BitVec.toNat_ushiftRight, Nat.shiftRight_eq_div_pow]

/-! ### What a packed image holds (R231, R232) -/

theorem packImage_vs (l : LutDescriptor) {v g : Nat} (hv : v < 5) (hg : g < 12) :
    (packImage l)[12 * v + g]? = some (phaseByte l v g) := by
  rw [packImage_phase l (by omega), show (12 * v + g) / 12 = v by omega, show (12 * v + g) % 12 = g by omega]

theorem packImage_t (l : LutDescriptor) {g k : Nat} (hg : g < 12) (hk : k < 7) :
    (packImage l)[60 + 7 * g + k]? = some (BitVec.ofNat 8 (l.tAt g k)) := by
  rw [Nat.add_assoc, packImage_timing l (by omega), show (7 * g + k) / 7 = g by omega,
    show (7 * g + k) % 7 = k by omega]

/-- A phase's code in its byte: phase A has the two highest bits. -/
theorem phaseByte_code (l : LutDescriptor) (v g : Nat) {ph : Nat} (h : ph < 4) :
    (phaseByte l v g).toNat / 4 ^ (3 - ph) % 4 = l.vsAt v g ph % 4 := by
  rw [phaseByte_toNat]
  interval_cases ph <;> omega

/-- A group's nibble in its byte: the even group has the high one. -/
theorem frameRateByte_nibble (l : LutDescriptor) (g : Nat) :
    (frameRateByte l (g / 2)).toNat / 16 ^ (1 - g % 2) % 16 = l.frAt g % 16 := by
  rw [frameRateByte_toNat]
  obtain h | h := Nat.mod_two_eq_zero_or_one g
  · rw [h, show 2 * (g / 2) = g by omega]
    omega
  · rw [h, show 2 * (g / 2) + 1 = g by omega]
    omega

/-- A flag in its byte: the lowest-numbered one has the highest bit. -/
theorem flagByte_flag (l : LutDescriptor) (j : Nat) :
    (flagByte l (j / 8)).toNat / 2 ^ (7 - j % 8) % 2 = l.nsAt j % 2 := by
  have hj : l.nsAt j = l.nsAt (8 * (j / 8) + j % 8) := by rw [Nat.div_add_mod]
  have h0 : l.nsAt (8 * (j / 8) + 0) = l.nsAt (8 * (j / 8)) := rfl
  have hr : j % 8 < 8 := Nat.mod_lt j (by decide)
  rw [flagByte_toNat, hj]
  interval_cases j % 8 <;> omega

/-- Settles O57: one clause per region of the image. -/
theorem packedFieldsLieWhereTheImageHasThem : Obligations.PackedFieldsLieWhereTheImageHasThem := by
  intro l s
  refine ⟨packImage l, exec_packLut l s, packImage_length l, fun v g ph hv hg hph => ?phase,
    fun g k hg hk => ?timing, fun g hg => ?frameRate, fun j hj => ?flag, fun i hi => ?scalar⟩
  case phase => exact ⟨_, packImage_vs l hv hg, phaseByte_code l v g hph⟩
  case timing => exact ⟨_, packImage_t l hg hk, BitVec.toNat_ofNat _ 8⟩
  case frameRate => exact ⟨_, packImage_frameRate l (by omega), frameRateByte_nibble l g⟩
  case flag => exact ⟨_, packImage_flag l (by omega), flagByte_flag l j⟩
  case scalar => exact ⟨_, packImage_scalar l hi, BitVec.toNat_ofNat _ 8⟩

/-! ### Unpacking a packed image (R234) -/

theorem unpackVs_packImage (l : LutDescriptor) {v g ph : Nat} (hv : v < 5) (hg : g < 12) (hph : ph < 4) :
    unpackVs (packImage l) v g ph = l.vsAt v g ph % 4 := by
  rw [unpackVs_eq _ _ _ hph, imageByte_of_getElem? (packImage_vs l hv hg), phaseByte_code l v g hph]

theorem unpackT_packImage (l : LutDescriptor) {g k : Nat} (hg : g < 12) (hk : k < 7) :
    unpackT (packImage l) g k = l.tAt g k % 256 := by
  rw [unpackT, imageByte_of_getElem? (packImage_t l hg hk), BitVec.toNat_ofNat]

theorem unpackFr_packImage (l : LutDescriptor) {g : Nat} (hg : g < 12) :
    unpackFr (packImage l) g = l.frAt g % 16 := by
  rw [unpackFr_eq, imageByte_of_getElem? (packImage_frameRate l (by omega)), frameRateByte_nibble]

theorem unpackNs_packImage (l : LutDescriptor) {j : Nat} (hj : j < 24) :
    unpackNs (packImage l) j = l.nsAt j % 2 := by
  rw [unpackNs_eq, imageByte_of_getElem? (packImage_flag l (by omega)), flagByte_flag]

theorem unpackSc_packImage (l : LutDescriptor) {i : Nat} (hi : i < 5) :
    unpackSc (packImage l) i = l.scAt i % 256 := by
  rw [unpackSc, imageByte_of_getElem? (packImage_scalar l hi), BitVec.toNat_ofNat]

/-- A list read entry by entry and cut to `m` is the list cut to `m`. -/
theorem range_map_eq_map_mod {n m : Nat} {l : List Nat} {f : Nat → Nat} (hlen : l.length = n)
    (hf : ∀ i, i < n → f i = l.getD i 0 % m) : (List.range n).map f = l.map (· % m) := by
  refine List.ext_getElem (by simp [hlen]) fun i h _ => ?_
  have hi : i < n := by simpa using h
  simp [hf i hi, hlen, hi]

/-- The counts of R230, one by one. -/
theorem shapeOk_iff (l : LutDescriptor) : l.shapeOk = true ↔
    l.vs.length = 240 ∧ l.t.length = 84 ∧ l.fr.length = 12 ∧ l.ns.length = 24 ∧ l.sc.length = 5 := by
  simp only [LutDescriptor.shapeOk, Bool.and_eq_true, beq_iff_eq, and_assoc]

/-- Every field within its width, kind by kind. -/
theorem inRange_iff (l : LutDescriptor) : l.inRange = true ↔
    (∀ v ∈ l.vs, v < 4) ∧ (∀ v ∈ l.t, v < 256) ∧ (∀ v ∈ l.fr, v < 16) ∧ (∀ v ∈ l.ns, v < 2) ∧
      (∀ v ∈ l.sc, v < 256) := by
  simp only [LutDescriptor.inRange, Bool.and_eq_true, List.all_eq_true, decide_eq_true_eq, and_assoc]

/-- Unpacking a packed descriptor cuts its fields to their widths (R232, R234). -/
theorem unpackImage_packImage {l : LutDescriptor} (h : l.shapeOk = true) :
    unpackImage (packImage l) = truncated l := by
  obtain ⟨hvs, ht, hfr, hns, hsc⟩ := (shapeOk_iff l).mp h
  rw [unpackImage, truncated, LutDescriptor.mk.injEq]
  refine ⟨range_map_eq_map_mod hvs fun i hi => ?_, range_map_eq_map_mod ht fun i hi => ?_,
    range_map_eq_map_mod hfr fun g hg => unpackFr_packImage l hg,
    range_map_eq_map_mod hns fun j hj => unpackNs_packImage l hj,
    range_map_eq_map_mod hsc fun i hi => unpackSc_packImage l hi⟩
  · rw [unpackVs_packImage l (by omega) (by omega) (by omega), LutDescriptor.vsAt,
      show 48 * (i / 48) + 4 * (i % 48 / 4) + i % 4 = i by omega]
  · rw [unpackT_packImage l (by omega) (by omega), LutDescriptor.tAt, Nat.div_add_mod]

theorem map_mod_eq_self {l : List Nat} {m : Nat} (h : ∀ v ∈ l, v < m) : l.map (· % m) = l :=
  (List.map_congr_left fun v hv => Nat.mod_eq_of_lt (h v hv)).trans (List.map_id' l)

/-- A descriptor whose fields are in range is not cut. -/
theorem truncated_of_inRange {l : LutDescriptor} (h : l.inRange = true) : truncated l = l := by
  obtain ⟨hvs, ht, hfr, hns, hsc⟩ := (inRange_iff l).mp h
  rw [truncated, map_mod_eq_self hvs, map_mod_eq_self ht, map_mod_eq_self hfr, map_mod_eq_self hns,
    map_mod_eq_self hsc]

/-- Settles O58. -/
theorem unpackUndoesPack : Obligations.UnpackUndoesPack := by
  intro l s hshape
  have hunpack := unpackImage_packImage hshape
  refine ⟨packImage l, exec_packLut l s, ?_, fun hrange => ?_⟩
  · rw [exec_unpackLut, hunpack, setResult]
  · rw [exec_unpackLut, hunpack, truncated_of_inRange hrange, setResult]

/-! ### Packing an unpacked image (R234) -/

theorem unpackImage_vsAt (img : List Byte) {v g ph : Nat} (hv : v < 5) (hg : g < 12) (hph : ph < 4) :
    (unpackImage img).vsAt v g ph = unpackVs img v g ph := by
  rw [LutDescriptor.vsAt, unpackImage, getD_range_map _ _ (by omega),
    show (48 * v + 4 * g + ph) / 48 = v by omega, show (48 * v + 4 * g + ph) % 48 / 4 = g by omega,
    show (48 * v + 4 * g + ph) % 4 = ph by omega]

theorem unpackImage_tAt (img : List Byte) {g k : Nat} (hg : g < 12) (hk : k < 7) :
    (unpackImage img).tAt g k = unpackT img g k := by
  rw [LutDescriptor.tAt, unpackImage, getD_range_map _ _ (by omega), show (7 * g + k) / 7 = g by omega,
    show (7 * g + k) % 7 = k by omega]

theorem unpackImage_frAt (img : List Byte) {g : Nat} (hg : g < 12) : (unpackImage img).frAt g = unpackFr img g :=
  getD_range_map 12 _ hg

theorem unpackImage_nsAt (img : List Byte) {j : Nat} (hj : j < 24) : (unpackImage img).nsAt j = unpackNs img j :=
  getD_range_map 24 _ hj

theorem unpackImage_scAt (img : List Byte) {i : Nat} (hi : i < 5) : (unpackImage img).scAt i = unpackSc img i :=
  getD_range_map 5 _ hi

/-- The four codes of a byte are the byte. -/
theorem phaseByte_unpackImage (img : List Byte) {v g : Nat} (hv : v < 5) (hg : g < 12) :
    phaseByte (unpackImage img) v g = imageByte img (12 * v + g) := by
  have hcode {ph : Nat} (h : ph < 4) : (unpackImage img).vsAt v g ph =
      (imageByte img (12 * v + g)).toNat / 4 ^ (3 - ph) % 4 := by
    rw [unpackImage_vsAt img hv hg h, unpackVs_eq img v g h]
  refine BitVec.eq_of_toNat_eq ?_
  rw [phaseByte_toNat, hcode (by decide), hcode (by decide), hcode (by decide), hcode (by decide)]
  have := (imageByte img (12 * v + g)).isLt
  omega

/-- The two nibbles of a byte are the byte. -/
theorem frameRateByte_unpackImage (img : List Byte) {i : Nat} (hi : i < 6) :
    frameRateByte (unpackImage img) i = imageByte img (144 + i) := by
  refine BitVec.eq_of_toNat_eq ?_
  rw [frameRateByte_toNat, unpackImage_frAt img (by omega), unpackImage_frAt img (by omega), unpackFr_eq, unpackFr_eq,
    show 2 * i / 2 = i by omega, show (2 * i + 1) / 2 = i by omega, show 2 * i % 2 = 0 by omega,
    show (2 * i + 1) % 2 = 1 by omega]
  have := (imageByte img (144 + i)).isLt
  omega

/-- A byte is the sum of its bits. -/
theorem toNat_eq_sum_bits (b : Byte) :
    128 * (b.toNat / 2 ^ 7 % 2) + 64 * (b.toNat / 2 ^ 6 % 2) + 32 * (b.toNat / 2 ^ 5 % 2) +
      16 * (b.toNat / 2 ^ 4 % 2) + 8 * (b.toNat / 2 ^ 3 % 2) + 4 * (b.toNat / 2 ^ 2 % 2) +
      2 * (b.toNat / 2 ^ 1 % 2) + b.toNat / 2 ^ 0 % 2 = b.toNat := by
  revert b
  decide

/-- The eight flags of a byte are the byte. -/
theorem flagByte_unpackImage (img : List Byte) {i : Nat} (hi : i < 3) :
    flagByte (unpackImage img) i = imageByte img (150 + i) := by
  have hflag (b : Nat) (hb : b < 8) : (unpackImage img).nsAt (8 * i + b) % 2 =
      (imageByte img (150 + i)).toNat / 2 ^ (7 - b) % 2 := by
    rw [unpackImage_nsAt img (by omega), unpackNs_eq, show (8 * i + b) / 8 = i by omega,
      show (8 * i + b) % 8 = b by omega, Nat.mod_mod]
  have hflag0 := hflag 0 (by decide)
  rw [Nat.add_zero] at hflag0
  refine BitVec.eq_of_toNat_eq ?_
  rw [flagByte_toNat, hflag0, hflag 1 (by decide), hflag 2 (by decide), hflag 3 (by decide), hflag 4 (by decide),
    hflag 5 (by decide), hflag 6 (by decide), hflag 7 (by decide)]
  exact toNat_eq_sum_bits _

theorem getElem?_eq_imageByte {img : List Byte} {k : Nat} (h : k < img.length) : img[k]? = some (imageByte img k) := by
  rw [imageByte, List.getD_eq_getElem?_getD, List.getElem?_eq_getElem h, Option.getD_some]

/-- Packing an unpacked image gives it back, region by region: no bit is left out (R234). -/
theorem packImage_unpackImage {img : List Byte} (h : img.length = 158) : packImage (unpackImage img) = img := by
  refine List.ext_getElem? fun k => ?_
  obtain hk | hk | hk | hk | hk | hk : k < 60 ∨ (60 ≤ k ∧ k < 144) ∨ (144 ≤ k ∧ k < 150) ∨ (150 ≤ k ∧ k < 153) ∨
      (153 ≤ k ∧ k < 158) ∨ 158 ≤ k := by omega
  · rw [packImage_phase _ hk, phaseByte_unpackImage img (by omega) (by omega), Nat.div_add_mod,
      getElem?_eq_imageByte (by omega)]
  · obtain ⟨j, rfl⟩ := Nat.exists_eq_add_of_le hk.1
    rw [packImage_timing _ (by omega), unpackImage_tAt img (by omega) (by omega), unpackT, Nat.add_assoc,
      Nat.div_add_mod, BitVec.ofNat_toNat, BitVec.setWidth_eq, getElem?_eq_imageByte (by omega)]
  · obtain ⟨j, rfl⟩ := Nat.exists_eq_add_of_le hk.1
    rw [packImage_frameRate _ (by omega), frameRateByte_unpackImage img (by omega), getElem?_eq_imageByte (by omega)]
  · obtain ⟨j, rfl⟩ := Nat.exists_eq_add_of_le hk.1
    rw [packImage_flag _ (by omega), flagByte_unpackImage img (by omega), getElem?_eq_imageByte (by omega)]
  · obtain ⟨j, rfl⟩ := Nat.exists_eq_add_of_le hk.1
    rw [packImage_scalar _ (by omega), unpackImage_scAt img (by omega), unpackSc, BitVec.ofNat_toNat,
      BitVec.setWidth_eq, getElem?_eq_imageByte (by omega)]
  · rw [List.getElem?_eq_none (by rw [packImage_length]; exact hk), List.getElem?_eq_none (by omega)]

theorem unpackImage_shapeOk (img : List Byte) : (unpackImage img).shapeOk = true := by
  simp [shapeOk_iff, unpackImage]

/-- Every field of an unpacked image is within its width. -/
theorem unpackImage_inRange (img : List Byte) : (unpackImage img).inRange = true := by
  rw [inRange_iff, unpackImage]
  simp only [List.forall_mem_map, List.mem_range]
  refine ⟨fun i _ => ?_, fun i _ => BitVec.isLt _, fun g _ => ?_, fun j _ => ?_, fun i _ => BitVec.isLt _⟩
  · rw [unpackVs_eq img _ _ (Nat.mod_lt i (by decide))]
    exact Nat.mod_lt _ (by decide)
  · rw [unpackFr_eq]
    exact Nat.mod_lt _ (by decide)
  · rw [unpackNs_eq]
    exact Nat.mod_lt _ (by decide)

/-- Settles O59. -/
theorem packUndoesUnpack : Obligations.PackUndoesUnpack := by
  intro img s hlen
  refine ⟨unpackImage img, exec_unpackLut img s, unpackImage_shapeOk img, unpackImage_inRange img, ?_⟩
  rw [exec_packLut, packImage_unpackImage hlen, setResult]

end Sys2Proof.Machine
end
